-- ==== Sys2Proof/Word.lean ====
section
/-! DEFINITION. The word types of the block (00_scope.md R7, R12): bytes of VRAM, 32-bit words of the framebuffer, of the
command and of the registers, and the two-bit colour index. Bit 0 is the least significant bit. -/

namespace Sys2Proof

/-- One byte of VRAM, a tilemap entry or a shade (R25). -/
abbrev Byte := BitVec 8

/-- A 32-bit word: a command, a register, a packed pixel (R7 `PIXEL_BITS`). -/
abbrev Word := BitVec 32

/-- A two-bit colour index, 0..3 (R7 `INDEX_BITS`). -/
abbrev ColorIndex := BitVec 2

end Sys2Proof
end

