-- ==== Sys2Proof/Machine/Pixel.lean ====
section
/-! DEFINITION. The packed pixel word: its four channels (10_state.md R28) and the gray word of a shade (42_palette_lut.md
R138). -/

namespace Sys2Proof.Machine

/-- `GRAY(s)` (R138): the shade in R, G and B, full alpha. -/
def grayWord (shade : Byte) : Word :=
  (shade.setWidth 32 <<< 24) ||| (shade.setWidth 32 <<< 16) ||| (shade.setWidth 32 <<< 8) ||| 0xFF#32

/-- Channel R of a pixel word, bits 31:24 (R28). -/
def channelR (w : Word) : Byte := w.extractLsb 31 24

/-- Channel G of a pixel word, bits 23:16 (R28). -/
def channelG (w : Word) : Byte := w.extractLsb 23 16

/-- Channel B of a pixel word, bits 15:8 (R28). -/
def channelB (w : Word) : Byte := w.extractLsb 15 8

/-- Channel A of a pixel word, bits 7:0 (R28). -/
def channelA (w : Word) : Byte := w.extractLsb 7 0

end Sys2Proof.Machine
end

