-- ==== Sys2Proof/Config.lean ====
section
/-! DEFINITION. What is fixed for the life of the block (00_scope.md section 5, R7 to R10, R19): the constants of the source,
and the record of the parameters the source leaves open. No transaction and no command writes any of it (R137, R197). -/

namespace Sys2Proof

/-- The record of the parameters, as R40 lists it. Four have no value in the source (R9). -/
structure Params where
  /-- `PAL[0..3]`, the fixed RGBA profile (R36, R135); D7 puts no constraint on the words. -/
  pal : Vector Word 4
  /-- `HAS_GRAY`, whether the grayscale profile is present (R9, D8). -/
  hasGray : Bool
  /-- `SHADE[0..3]`, used only when `hasGray` (R37, R138, D8). -/
  shade : Vector Byte 4
  /-- `SENTINEL`, the prefill colour (R142); the default is full-intensity magenta (D9). -/
  sentinel : Word := 0xFF00FFFF#32
  /-- `SIGNED_BASE`, the base of signed tile indexing: 0x1000 by the formula of the source (R8, D11, 90_conflicts.md C1). -/
  signedBase : Nat := 0x1000
  deriving DecidableEq, Repr, Inhabited

namespace Params

/-- The value R8 gives `SIGNED_BASE`. The one place to change it, with the default above (log 6). -/
def baseValid (p : Params) : Bool := p.signedBase == 0x1000

/-- The constraint R9 and R142 put on `SENTINEL`: it differs from every `PAL[k]` and, when `HAS_GRAY`, from every
`GRAY(SHADE[k])`. -/
def sentinelValid (p : Params) : Bool :=
  (List.finRange 4).all (fun k => p.pal.get k != p.sentinel) &&
    (!p.hasGray || (List.finRange 4).all (fun k => Machine.grayWord (p.shade.get k) != p.sentinel))

/-- The parameters are those of a block of this hardware. -/
def valid (p : Params) : Bool := p.baseValid && p.sentinelValid

end Params

/-- A configuration of this hardware: parameters that meet their constraints. A record that breaks one is no configuration
(93_implementation_defined.md U4), so no state of the machine holds it. A statement holds for every configuration. -/
structure Config extends Params where
  /-- The constraints of R8 and R9 hold. -/
  valid : toParams.valid = true := by decide
  deriving DecidableEq, Repr, Inhabited

/-- The configuration of the block at hand. It has no body: the source gives none of the values (91_not_in_source.md N2 to
N4), so no proof can see more of them than that they are valid (log 3). -/
opaque Config.hw : Config

/-- The configuration with the given parameters; parameters that break a constraint are refused (U4, log 3). -/
def Config.ofParams (p : Params) : Option Config := if h : p.valid = true then some { toParams := p, valid := h } else none

namespace Config

/-- `VRAM_SIZE`, the length of the VRAM buffer in bytes (R7). -/
@[simp] abbrev vramSize : Nat := 8192

/-- `FB_WORDS`, the number of framebuffer words (R10). -/
@[simp] abbrev fbWords : Nat := 131072

/-- `TILE_BYTES` (R7). -/
@[simp] abbrev tileBytes : Nat := 16

/-- `MAP_W` and `MAP_H`, the size of one tilemap in tiles (R7). -/
@[simp] abbrev mapSize : Nat := 32

/-- `DUAL_H`, the rows of the 32×64 logical map region (R7). -/
@[simp] abbrev dualRows : Nat := 64

/-- `DUAL_SPLIT`, the first signed row of that region (R7). -/
@[simp] abbrev dualSplit : Nat := 32

/-- `MAP_BASE0`, the offset of tilemap 0 (R7). -/
@[simp] abbrev mapBase0 : Nat := 0x1800

/-- `MAP_BASE1`, the offset of tilemap 1 (R7). -/
@[simp] abbrev mapBase1 : Nat := 0x1C00

/-- `TILE_DATA_BASE`, the base of unsigned tile indexing (R7). -/
@[simp] abbrev tileDataBase : Int := 0x0000

/-- The number of whole tiles in VRAM, the bound of the range check (R181). -/
@[simp] abbrev vramTiles : Nat := 512

end Config

end Sys2Proof
end

