-- ==== Sys2Proof/Machine/State.lean ====
section
/-! DEFINITION. The state of the machine as plain data: the architectural tuple of 10_state.md R40, the configuration it runs
under, and the host's side of the interface (the transactions it has still to make, the word the last one returned); the
reasons a step can stop; the state after reset (R39, R195). -/

namespace Sys2Proof.Machine

/-- The three fault causes of the block (60_exceptions.md R175). -/
inductive Cause where
  /-- Code 1, any word that is not a legal command (R179). -/
  | illegalCommand
  /-- Code 2, a legal command before any `LOAD_VRAM` since reset (R180). -/
  | vramNotLoaded
  /-- Code 3, a legal `DTILE` whose walk would read beyond VRAM (R181). -/
  | vramOutOfRange
  deriving DecidableEq, Repr

/-- The fault record: the pair (cause, command word) of R40. -/
structure FaultRecord where
  /-- The cause that `STATUS.CAUSE` shows (R31, R175). -/
  cause : Cause
  /-- The command word that faulted, `FCMD` (R33). -/
  cmd : Word
  deriving DecidableEq, Repr

/-- The stops of the MODEL: accesses the spec defines no result for (20_memory.md R53, R56). None is a fault of the block (those
are next states, R176, which Machine/Outcome.lean tells apart as the fault outcomes of R191) and no command reaches one (R177, R183). -/
inductive Fault where
  /-- Raised by `memRead` for an offset outside 0..8191 (R53: "a model should make such a call a fault of the model"). Safe. -/
  | vramReadOutOfRange (a : Int)
  /-- Raised by `memWrite` for a word index outside 0..131071 (R56). Safe. -/
  | fbWriteOutOfRange (i : Nat)
  deriving DecidableEq, Repr

/-- Moves of the host that the spec gives no meaning ("a model gives the host no such move (it refuses them)", R35). -/
inductive Refusal where
  /-- Raised by the dispatcher for a command with no meaning; every command has one, so nothing raises it. Safe. -/
  | notModelled (mnemonic : String)
  /-- Raised by `READ_REG` of register 0 or of a number above 3 (R35, D29, U11). Safe. -/
  | readRegUndefined (r : Nat)
  /-- Raised by `READ_FB` of an index outside 0..131071 (R170, U10). Safe. -/
  | readFbOutOfRange (i : Nat)
  /-- Raised by `READ_FB` of a word that holds no value (R174, U8). Safe. -/
  | readFbNoValue (i : Nat)
  /-- Raised by `LOAD_VRAM` of a buffer that is not exactly 8192 bytes long (R171, U12). Safe. -/
  | loadVramWrongLength (len : Nat)
  deriving DecidableEq, Repr

/-- A transaction of the host (R170): these five and no others. -/
inductive Transaction where
  /-- `RESET` (R195). -/
  | reset
  /-- `LOAD_VRAM(buf)` (R171). -/
  | loadVram (buf : List Byte)
  /-- `ISSUE(w)`, the write of register 0 (R30, R172). -/
  | issue (w : Word)
  /-- `READ_REG(r)` (R173). -/
  | readReg (r : Nat)
  /-- `READ_FB(i)` (R174). -/
  | readFb (i : Nat)
  deriving DecidableEq, Repr

/-- The contents of a LOADED VRAM: its nonzero bytes by rising offset. An offset below 8192 that is not listed holds the byte
0x00 of the loaded buffer, so one list stands for one 8192-byte buffer (log 4). -/
abbrev Vram := List Host.Cell

/-- The framebuffer: the words that hold a value, by rising index. A word that is not listed holds no value (R27). -/
abbrev Fb := List (Nat × Word)

/-- The complete architectural state (R40). -/
structure Block where
  /-- `VRAM` with `VRAM_LOADED`: absent while not loaded (R25, R26). -/
  vram : Option Vram
  /-- `FB` (R27). -/
  fb : Fb
  /-- `DIMS.OUT_W`, the width of the last completed pass (R32). -/
  outW : BitVec 10
  /-- `DIMS.OUT_H`, the height of the last completed pass (R32). -/
  outH : BitVec 10
  /-- `STATUS.FAULT`, `STATUS.CAUSE` and `FCMD`: the recorded fault, if any (R31, R33). -/
  fault : Option FaultRecord
  deriving DecidableEq, Repr

/-- The block after `RESET` (R39, R195). -/
def Block.reset : Block where
  vram := none
  fb := []
  outW := 0#10
  outH := 0#10
  fault := none

/-- The machine: the block, the configuration no step writes (log 3), and the host's side. -/
structure State extends Block where
  /-- The parameters of R9, read only (R19, R137, R197). -/
  cfg : Config
  /-- The model's own: the transactions the host has still to make, the next one first (R209, log 1). -/
  pending : List Transaction
  /-- The model's own: the word the last transaction returned, if it returned one (R170, log 2). -/
  reply : Option Word
  deriving DecidableEq, Repr

/-- The machine right after reset (R39): every run starts here (R196). No transaction is waiting: the host's program is no
part of reset (log 1). -/
def State.reset : State where
  toBlock := Block.reset
  cfg := Config.hw
  pending := []
  reply := none

end Sys2Proof.Machine
end

