-- ==== Sys2Proof/Syntax.lean ====
section
/-! DEFINITION. The command set (30_encoding.md R80 to R92): one constructor per row of spec/opcode_table.json, its fields as
R82 gives them. -/

namespace Sys2Proof

/-- `MS`: which of the two tilemaps (R82 format M). -/
inductive MapSelect where
  | map0  -- the tilemap at 0x1800
  | map1  -- the tilemap at 0x1C00
  deriving DecidableEq, Repr

/-- `SG`: how a tilemap entry is read as a tile index (R82 format M, R128). -/
inductive Addressing where
  | unsigned
  | signed
  deriving DecidableEq, Repr

/-- `PR`: which of the two palette profiles (R81, R83). -/
inductive Profile where
  | rgba
  | gray
  deriving DecidableEq, Repr

/-- The commands (R86). The fields of `dtile` have the widths of R82, so that the illegal values of R87 are terms too. -/
inductive Instr where
  /-- `DMAP`: render one 32×32 tilemap (R152). -/
  | dmap (ms : MapSelect) (sg : Addressing) (pr : Profile)
  /-- `DDUAL`: render the 32×64 logical map region; `pr` is the profile of rows 32..63 (R155). -/
  | ddual (pr : Profile)
  /-- `DTILE`: render `n` tiles of the flat tile array on a grid of `gw` × `gh` tiles (R158). -/
  | dtile (n : BitVec 11) (gw : BitVec 6) (gh : BitVec 7) (pr : Profile)
  deriving DecidableEq, Repr

/-- `DCHARS gw, gh`, the full character-set view (R92). -/
def Instr.dchars (gw : BitVec 6) (gh : BitVec 7) : Instr := .dtile 384#11 gw gh .rgba

/-- `DGRID`, the display-grid view (R92). -/
def Instr.dgrid : Instr := .dtile 1024#11 32#6 32#7 .rgba

/-- `DFILL gw, gh`, a pass that draws no tile (R92). -/
def Instr.dfill (gw : BitVec 6) (gh : BitVec 7) : Instr := .dtile 0#11 gw gh .rgba

end Sys2Proof
end

