-- ==== Sys2Proof/Decode.lean ====
section
/-! DEFINITION. The command encoding (30_encoding.md): the decoder from a 32-bit word to a command shape (R86), the legality
of a command's fields (R87), the two together as the spec writes them (R89), and the encoder, from the same tables of R82. -/

namespace Sys2Proof

/-! ## One-bit fields -/

/-- The tilemap a value of the bit `MS` selects (R82). -/
def MapSelect.ofBit (b : Bool) : MapSelect := if b then .map1 else .map0

/-- The bit `MS` of a selection (R82). -/
def MapSelect.bit : MapSelect → BitVec 1
  | .map0 => 0#1
  | .map1 => 1#1

/-- The interpretation a value of the bit `SG` selects (R82). -/
def Addressing.ofBit (b : Bool) : Addressing := if b then .signed else .unsigned

/-- The bit `SG` of an interpretation (R82). -/
def Addressing.bit : Addressing → BitVec 1
  | .unsigned => 0#1
  | .signed => 1#1

/-- The profile a value of the bit `PR` selects (R82). -/
def Profile.ofBit (b : Bool) : Profile := if b then .gray else .rgba

/-- The bit `PR` of a profile (R82). -/
def Profile.bit : Profile → BitVec 1
  | .rgba => 0#1
  | .gray => 1#1

/-! ## Decoding -/

/-- Why a word has the shape of no command (R88). -/
inductive DecodeError where
  /-- `OP` is 0x0 or 0x4 to 0xF. -/
  | reservedOpcode (op : BitVec 4)
  /-- A defined `OP` with a reserved bit set. -/
  | reservedBits (op : BitVec 4)
  deriving DecidableEq, Repr

/-- The command whose shape (opcode and reserved bits, R86) the word has, its fields read as R84 says. Whether the fields'
values are legal is R87, `legal`. -/
def decode (w : Word) : Except DecodeError Instr :=
  let op := w.extractLsb 31 28
  let pr := Profile.ofBit (w.getLsbD 2)
  if op = 0x1#4 then
    if w.extractLsb 27 3 = 0#25 then
      .ok (.dmap (MapSelect.ofBit (w.getLsbD 0)) (Addressing.ofBit (w.getLsbD 1)) pr)
    else .error (.reservedBits op)
  else if op = 0x2#4 then
    if w.extractLsb 27 3 = 0#25 ∧ w.extractLsb 1 0 = 0#2 then .ok (.ddual pr)
    else .error (.reservedBits op)
  else if op = 0x3#4 then
    if w.extractLsb 27 27 = 0#1 ∧ w.extractLsb 1 0 = 0#2 then
      .ok (.dtile (w.extractLsb 13 3) (w.extractLsb 19 14) (w.extractLsb 26 20) pr)
    else .error (.reservedBits op)
  else .error (.reservedOpcode op)

/-! ## Legal field values (R87) -/

/-- R87 (a): the grayscale profile is legal only on a block that has it. -/
def profileLegal (c : Config) : Profile → Bool
  | .rgba => true
  | .gray => c.hasGray

/-- R87 (b): 1 ≤ `GW` ≤ 32. -/
def gridWidthLegal (gw : BitVec 6) : Bool := decide (1 ≤ gw.toNat ∧ gw.toNat ≤ 32)

/-- R87 (c): 1 ≤ `GH` ≤ 64. -/
def gridHeightLegal (gh : BitVec 7) : Bool := decide (1 ≤ gh.toNat ∧ gh.toNat ≤ 64)

/-- R87 (d): `N` ≤ 1024. -/
def tileCountLegal (n : BitVec 11) : Bool := decide (n.toNat ≤ 1024)

/-- R87: the field values of a command are legal on a block with this configuration. -/
def legal (c : Config) : Instr → Bool
  | .dmap _ _ pr => profileLegal c pr
  | .ddual pr => profileLegal c pr
  | .dtile n gw gh pr => profileLegal c pr && gridWidthLegal gw && gridHeightLegal gh && tileCountLegal n

/-- The decode of R89, test by test as the spec writes it; `none` is the spec's `Illegal`. -/
def decodeCommand (c : Config) (w : Word) : Option Instr :=
  let op := (w.extractLsb 31 28).toNat
  let pr := w.getLsbD 2
  if pr = true ∧ c.hasGray = false then none
  else if op = 0x1 then
    if w.extractLsb 27 3 ≠ 0#25 then none
    else some (.dmap (MapSelect.ofBit (w.getLsbD 0)) (Addressing.ofBit (w.getLsbD 1)) (Profile.ofBit pr))
  else if op = 0x2 then
    if w.extractLsb 27 3 ≠ 0#25 ∨ w.extractLsb 1 0 ≠ 0#2 then none
    else some (.ddual (Profile.ofBit pr))
  else if op = 0x3 then
    if w.getLsbD 27 = true ∨ w.extractLsb 1 0 ≠ 0#2 then none
    else
      let n := w.extractLsb 13 3
      let gw := w.extractLsb 19 14
      let gh := w.extractLsb 26 20
      if gw.toNat < 1 ∨ gw.toNat > 32 then none
      else if gh.toNat < 1 ∨ gh.toNat > 64 then none
      else if n.toNat > 1024 then none
      else some (.dtile n gw gh (Profile.ofBit pr))
  else none

/-! ## Encoding -/

/-- The word of a command, field by field from bit 31 down (R82). -/
def encode : Instr → Word
  | .dmap ms sg pr => 0x1#4 ++ 0#25 ++ pr.bit ++ sg.bit ++ ms.bit
  | .ddual pr => 0x2#4 ++ 0#25 ++ pr.bit ++ 0#2
  | .dtile n gw gh pr => 0x3#4 ++ 0#1 ++ gh ++ gw ++ n ++ pr.bit ++ 0#2

/-- The column `mask` of the opcode map (R86). -/
def opcodeMask : Instr → Word
  | .dmap _ _ _ => 0xFFFFFFF8#32
  | .ddual _ => 0xFFFFFFFB#32
  | .dtile _ _ _ _ => 0xF8000003#32

/-- The column `match` of the opcode map (R86). -/
def opcodeMatch : Instr → Word
  | .dmap _ _ _ => 0x10000000#32
  | .ddual _ => 0x20000000#32
  | .dtile _ _ _ _ => 0x30000000#32

/-! ## Table words -/

/-- The command word whose bits are `w`, numbered as spec/opcode_table.json numbers them; the bits above `nbits` are 0. A
command is one 32-bit word taken whole (R80), so there is no byte order to lay it out in. -/
def tableWord (nbits w : Nat) : Word := BitVec.ofNat 32 (w % 2 ^ nbits)

/-- What the decoder reads from a word of the opcode table. -/
def decodeTableWord (nbits w : Nat) : Option Instr :=
  match decode (tableWord nbits w) with
  | .ok i => some i
  | .error _ => none

/-! ## Assembler text (R91, D25) -/

/-- The suffix of a `GRAY` form. -/
def grayText (separator : String) : Profile → String
  | .rgba => ""
  | .gray => separator ++ "GRAY"

/-- The assembler text of a command (R91). -/
def assembly : Instr → String
  | .dmap ms sg pr =>
    (match sg with | .unsigned => "DMAP.U " | .signed => "DMAP.S ")
      ++ (match ms with | .map0 => "0" | .map1 => "1") ++ grayText ", " pr
  | .ddual pr => "DDUAL" ++ grayText " " pr
  | .dtile n gw gh pr =>
    "DTILE " ++ toString n.toNat ++ ", " ++ toString gw.toNat ++ ", " ++ toString gh.toNat ++ grayText ", " pr

end Sys2Proof
end

