-- ==== Sys2Proof/WellFormed.lean ====
section
/-! DEFINITION. A command is well formed when every field has a legal value (30_encoding.md R87). The reserved bits need no
check: a term of `Instr` has none. -/

namespace Sys2Proof

/-- R87, all of (a) to (d), on a block with configuration `c`. -/
abbrev Instr.WellFormed (c : Config) (i : Instr) : Prop := legal c i = true

end Sys2Proof
end

