-- ==== Sys2Proof/Machine/Ops.lean ====
section
/-! DEFINITION. The named operations over the state: reading and writing cells, VRAM and the framebuffer (20_memory.md R53,
R56), loading VRAM (60_exceptions.md R171), recording a fault (R176), the check phase of a command (R182) and the completion of
a pass (43_frame_rasterizer.md R151). -/

namespace Sys2Proof.Machine

/-! ## Cells by rising address -/

/-- The value listed at address `a`, if one is. -/
def cellAt {α : Type} : List (Nat × α) → Nat → Option α
  | [], _ => none
  | (b, v) :: rest, a => if a = b then some v else cellAt rest a

/-- The list with the value `v` at address `a`, in its place by rising address. -/
def putCell {α : Type} : List (Nat × α) → Nat → α → List (Nat × α)
  | [], a, v => [(a, v)]
  | (b, u) :: rest, a, v =>
    if a < b then (a, v) :: (b, u) :: rest
    else if a = b then (a, v) :: rest
    else (b, u) :: putCell rest a v

/-- Every listed address is at least `lo` and below `hi`, and the addresses strictly rise. -/
def cellsWithin {α : Type} (lo hi : Nat) : List (Nat × α) → Bool
  | [] => true
  | (a, _) :: rest => decide (lo ≤ a) && decide (a < hi) && cellsWithin (a + 1) hi rest

/-! ## VRAM -/

/-- The canonical form of a loaded VRAM: offsets strictly rising inside 0..8191, no byte equal to what an unlisted offset
holds. -/
def vramWf (v : Vram) : Bool := cellsWithin 0 Config.vramSize v && v.all (fun c => c.2 != 0#8)

/-- What an offset holds that a loaded VRAM does not list (log 4). -/
def unlistedByte : Byte := 0x00#8

/-- `MemRead(a, 1)` (R53): the byte at offset `a`, defined for 0 ≤ a ≤ 8191 only and never wrapped. -/
def memRead (v : Vram) : Int → Except Fault Byte
  | .ofNat a =>
    if a < Config.vramSize then .ok ((cellAt v a).getD unlistedByte) else .error (.vramReadOutOfRange (.ofNat a))
  | .negSucc k => .error (.vramReadOutOfRange (.negSucc k))

/-- The listing of the bytes of a buffer from offset `a` up. -/
def vramOfBytes : Nat → List Byte → Vram
  | _, [] => []
  | a, b :: rest => if b = unlistedByte then vramOfBytes (a + 1) rest else (a, b) :: vramOfBytes (a + 1) rest

/-! ## The framebuffer -/

/-- One `MemWrite(i, 4, w)`: the word index and the word. -/
abbrev Write := Nat × Word

/-- The canonical form of the framebuffer: indices strictly rising inside 0..131071. Every listed word holds a value. -/
def fbWf (fb : Fb) : Bool := cellsWithin 0 Config.fbWords fb

/-- Framebuffer word `i`: its value, or nothing when it holds no value (R27). -/
def fbWord (fb : Fb) (i : Nat) : Option Word := cellAt fb i

/-- `MemWrite(i, 4, w)` (R56), defined for 0 ≤ i ≤ 131071 only. -/
def memWrite (fb : Fb) (w : Write) : Except Fault Fb :=
  if w.1 < Config.fbWords then .ok (putCell fb w.1 w.2) else .error (.fbWriteOutOfRange w.1)

/-- The framebuffer after the writes of a list, the first first. -/
def memWrites : Fb → List Write → Except Fault Fb
  | fb, [] => .ok fb
  | fb, w :: ws =>
    match memWrite fb w with
    | .ok fb' => memWrites fb' ws
    | .error e => .error e

/-- Both memories in canonical form. -/
def Memory.wf (b : Block) : Bool := (b.vram.all vramWf) && fbWf b.fb

/-! ## Loops -/

/-- A counted loop (R14) whose body gives a list, the lists of its rounds one after the other. -/
def collect {α β : Type} : List α → (α → Except Fault (List β)) → Except Fault (List β)
  | [], _ => .ok []
  | x :: xs, body =>
    match body x with
    | .error e => .error e
    | .ok ys =>
      match collect xs body with
      | .error e => .error e
      | .ok zs => .ok (ys ++ zs)

/-! ## Updates of the state -/

/-- `raise <Fault>(w)` (R176): the fault record is written and nothing else changes. -/
def State.raise (s : State) (cause : Cause) (w : Word) : State := { s with fault := some ⟨cause, w⟩ }

/-- The end of a pass (R151 phase 4): the framebuffer it produced, and `DIMS`. -/
def State.completePass (s : State) (fb : Fb) (outW outH : Nat) : State :=
  { s with fb := fb, outW := BitVec.ofNat 10 outW, outH := BitVec.ofNat 10 outH }

/-- VRAM replaced as a whole and `VRAM_LOADED` set (R171). -/
def State.loadBuffer (s : State) (buf : List Byte) : State := { s with vram := some (vramOfBytes 0 buf) }

/-- `RESET` (R195): the block as R39 says; the configuration is not touched (R197). -/
def State.resetBlock (s : State) : State := { s with toBlock := Block.reset }

/-- A transaction returns the word `w` (R170). -/
def State.answer (s : State) (w : Word) : State := { s with reply := some w }

/-- The host makes its next transaction: `rest` is what it has still to make after it, and nothing is returned yet. -/
def State.nextTransaction (s : State) (rest : List Transaction) : State := { s with pending := rest, reply := none }

/-! ## The check phase of a command -/

/-- The tiles a command reads straight from the tile array (R181): ids 0 .. min(N, GW*GH) - 1. -/
def directTiles : Instr → Nat
  | .dmap _ _ _ => 0
  | .ddual _ => 0
  | .dtile n gw gh _ => min n.toNat (gw.toNat * gh.toNat)

/-- What the check phase decides of a command (R182). -/
inductive Verdict where
  /-- A fault is recorded already: the command does nothing (R178). -/
  | ignore
  /-- The command ends with this fault (R176). -/
  | raise (cause : Cause)
  /-- The pass runs, on this VRAM. -/
  | run (v : Vram)
  deriving DecidableEq, Repr

/-- The check phase (R182), for a word that has the shape of the command `i`: its tests in the order of the rule. -/
def check (i : Instr) (s : State) : Verdict :=
  if s.fault.isSome then .ignore
  else if legal s.cfg i = false then .raise .illegalCommand
  else
    match s.vram with
    | none => .raise .vramNotLoaded
    | some v => if directTiles i > Config.vramTiles then .raise .vramOutOfRange else .run v

/-- A command (R151): the check phase, then the pass if every test is met. -/
def underCheck (i : Instr) (pass : Vram → State → Host.Outcome State Fault Refusal) (s : State) :
    Host.Outcome State Fault Refusal :=
  match check i s with
  | .ignore => .next s
  | .raise cause => .next (s.raise cause (encode i))
  | .run v => pass v s

/-- A word with the shape of no command (R88, R182): ignored after a fault, else `ILLEGAL_COMMAND`. -/
def rejectWord (w : Word) (s : State) : Host.Outcome State Fault Refusal :=
  if s.fault.isSome then .next s else .next (s.raise .illegalCommand w)

end Sys2Proof.Machine
end

