-- ==== Sys2Proof/Machine/Bitplane.lean ====
section
/-! DEFINITION. tile_bitplane_decoder (40_bitplane_decoder.md): from the bitplane bytes of a tile to its colour indices. -/

namespace Sys2Proof.Machine

/-- `PIX(lo, hi, col)` (R110): bit `7 - col` of the high byte over that of the low byte. -/
def pix (lo hi : Byte) (col : Fin 8) : ColorIndex :=
  let bit := 7 - col.val
  let lowBit := (BitVec.ofBool (lo.getLsbD bit)).setWidth 2
  let highBit := (BitVec.ofBool (hi.getLsbD bit)).setWidth 2
  (highBit <<< 1) ||| lowBit

/-- `ROW(lo, hi)` (R112): the eight indices of a tile row, leftmost first. -/
def row (lo hi : Byte) : Vector ColorIndex 8 := Vector.ofFn (pix lo hi)

/-- The two bytes of row `r` of the tile at `off`, low bitplane first (R113): the row latch of 10_state.md R23. -/
def rowBytes (v : Vram) (off : Int) (r : Fin 8) : Except Fault (Byte × Byte) :=
  match memRead v (off + 2 * r.val) with
  | .error e => .error e
  | .ok lo =>
    match memRead v (off + 2 * r.val + 1) with
    | .error e => .error e
    | .ok hi => .ok (lo, hi)

/-- `TILE(off)` (R114): the eight rows of the tile at `off`, the top row first. -/
def tile (v : Vram) (off : Int) : Except Fault (List (Vector ColorIndex 8)) :=
  collect (List.finRange 8) fun r =>
    match rowBytes v off r with
    | .error e => .error e
    | .ok (lo, hi) => .ok [row lo hi]

end Sys2Proof.Machine
end

