-- ==== Sys2Proof/Machine/FastWrites.lean ====
section
/-! DEFINITION. How a long list of framebuffer writes is RUN. The meaning of the writes is `memWrites` of Machine/Ops.lean, one
sorted insertion a write; a full pass makes up to 262144 of them. Here stand the laws of the cells, an equal computation over a
binary tree of indices, and the proof that the two are the same function (`memWrites_eq_memWritesFast`), which lets compiled code
take the fast one. No statement and no meaning depends on the tree. -/

namespace Sys2Proof.Machine

/-! ## Cells -/

/-- A read after a write: the value written at its address, what was there before elsewhere. -/
theorem cellAt_putCell {α : Type} (m : List (Nat × α)) (a b : Nat) (v : α) :
    cellAt (putCell m a v) b = if b = a then some v else cellAt m b := by
  induction m with
  | nil => simp [putCell, cellAt]
  | cons c rest ih =>
    obtain ⟨k, u⟩ := c
    unfold putCell
    split_ifs <;> simp only [cellAt, ih] <;> split_ifs <;> first | rfl | omega

/-- A canonical list stays canonical under a larger window. -/
theorem cellsWithin_mono {α : Type} {lo lo' hi : Nat} {m : List (Nat × α)} (h : lo' ≤ lo)
    (hm : cellsWithin lo hi m = true) : cellsWithin lo' hi m = true := by
  cases m with
  | nil => rfl
  | cons c rest =>
    simp only [cellsWithin, Bool.and_eq_true, decide_eq_true_eq] at hm ⊢
    exact ⟨⟨by omega, hm.1.2⟩, hm.2⟩

/-- A write inside the window keeps the canonical form. -/
theorem cellsWithin_putCell {α : Type} {lo hi : Nat} {m : List (Nat × α)} {a : Nat} {v : α}
    (hm : cellsWithin lo hi m = true) (hlo : lo ≤ a) (hhi : a < hi) : cellsWithin lo hi (putCell m a v) = true := by
  induction m generalizing lo with
  | nil => simp [putCell, cellsWithin, hlo, hhi]
  | cons c rest ih =>
    obtain ⟨k, u⟩ := c
    simp only [cellsWithin, Bool.and_eq_true, decide_eq_true_eq] at hm
    unfold putCell
    split_ifs with h1 h2
    · simp only [cellsWithin, Bool.and_eq_true, decide_eq_true_eq]
      exact ⟨⟨hlo, hhi⟩, ⟨by omega, hm.1.2⟩, hm.2⟩
    · subst h2
      simp only [cellsWithin, Bool.and_eq_true, decide_eq_true_eq]
      exact ⟨⟨hlo, hhi⟩, hm.2⟩
    · simp only [cellsWithin, Bool.and_eq_true, decide_eq_true_eq]
      exact ⟨hm.1, ih hm.2 (by omega)⟩

/-- A canonical list lists nothing below its window. -/
theorem cellAt_below {α : Type} {lo hi : Nat} {m : List (Nat × α)} {a : Nat} (hm : cellsWithin lo hi m = true)
    (ha : a < lo) : cellAt m a = none := by
  induction m generalizing lo with
  | nil => rfl
  | cons c rest ih =>
    obtain ⟨k, u⟩ := c
    simp only [cellsWithin, Bool.and_eq_true, decide_eq_true_eq] at hm
    rw [cellAt, if_neg (by omega)]
    exact ih hm.2 (by omega)

/-- A canonical list lists nothing above its window. -/
theorem cellAt_above {α : Type} {lo hi : Nat} {m : List (Nat × α)} {a : Nat} (hm : cellsWithin lo hi m = true)
    (ha : hi ≤ a) : cellAt m a = none := by
  induction m generalizing lo with
  | nil => rfl
  | cons c rest ih =>
    obtain ⟨k, u⟩ := c
    simp only [cellsWithin, Bool.and_eq_true, decide_eq_true_eq] at hm
    rw [cellAt, if_neg (by omega)]
    exact ih hm.2

/-- Two canonical lists that read alike are the same list. -/
theorem cells_ext {α : Type} {lo hi : Nat} {m m' : List (Nat × α)} (hm : cellsWithin lo hi m = true)
    (hm' : cellsWithin lo hi m' = true) (h : ∀ a, cellAt m a = cellAt m' a) : m = m' := by
  induction m generalizing lo m' with
  | nil =>
    cases m' with
    | nil => rfl
    | cons c _ => have := h c.1; simp [cellAt] at this
  | cons c rest ih =>
    obtain ⟨k, u⟩ := c
    cases m' with
    | nil => have := h k; simp [cellAt] at this
    | cons c' rest' =>
      obtain ⟨k', u'⟩ := c'
      simp only [cellsWithin, Bool.and_eq_true, decide_eq_true_eq] at hm hm'
      have hk : k = k' := by
        have h1 := h k
        have h2 := h k'
        simp only [cellAt, if_true] at h1 h2
        rcases Nat.lt_trichotomy k k' with hlt | heq | hgt
        · rw [if_neg (by omega), cellAt_below hm'.2 (by omega)] at h1; cases h1
        · exact heq
        · rw [if_neg (by omega), cellAt_below hm.2 (by omega)] at h2; cases h2
      subst hk
      have hu : u = u' := by have := h k; simpa [cellAt] using this
      subst hu
      refine congrArg _ (ih hm.2 hm'.2 fun a => ?_)
      by_cases ha : a = k
      · subst ha; rw [cellAt_below hm.2 (by omega), cellAt_below hm'.2 (by omega)]
      · have := h a; simpa [cellAt, ha] using this

/-! ## The framebuffer -/

/-- The word the writes of a list leave at index `i`: that of the last write to it, if one is. -/
def lastWrite : List Write → Nat → Option Word
  | [], _ => none
  | w :: ws, i => (lastWrite ws i).or (if i = w.1 then some w.2 else none)

theorem lastWrite_append (ws us : List Write) (i : Nat) :
    lastWrite (ws ++ us) i = (lastWrite us i).or (lastWrite ws i) := by
  induction ws with
  | nil => simp [lastWrite]
  | cons w ws ih => simp [lastWrite, ih, Option.or_assoc]

/-- An index no write of the list names is left alone. -/
theorem lastWrite_eq_none {ws : List Write} {i : Nat} (h : ∀ w ∈ ws, w.1 ≠ i) : lastWrite ws i = none := by
  induction ws with
  | nil => rfl
  | cons w ws ih =>
    rw [lastWrite, ih fun u hu => h u (by simp [hu]), if_neg fun e => h w (by simp) e.symm]
    rfl

/-- Writes that agree at an index leave there the value they agree on. -/
theorem lastWrite_eq_some {ws : List Write} {i : Nat} {x : Word} (hx : ∃ w ∈ ws, w.1 = i)
    (h : ∀ w ∈ ws, w.1 = i → w.2 = x) : lastWrite ws i = some x := by
  induction ws with
  | nil => obtain ⟨w, hw, _⟩ := hx; cases hw
  | cons w ws ih =>
    by_cases hws : ∃ u ∈ ws, u.1 = i
    · rw [lastWrite, ih hws fun u hu => h u (by simp [hu])]; rfl
    · rw [lastWrite, lastWrite_eq_none fun u hu e => hws ⟨u, hu, e⟩]
      obtain ⟨u, hu, hi⟩ := hx
      rcases List.mem_cons.1 hu with rfl | hu
      · simp [hi, h u (by simp) hi]
      · exact absurd ⟨u, hu, hi⟩ hws

/-- Writes inside the framebuffer never stop; they leave the last word written to an index and keep the rest. -/
theorem memWrites_ok {ws : List Write} (fb : Fb) (h : ∀ w ∈ ws, w.1 < 131072) :
    ∃ fb', memWrites fb ws = .ok fb' ∧ (∀ i, fbWord fb' i = (lastWrite ws i).or (fbWord fb i)) ∧
      (fbWf fb = true → fbWf fb' = true) := by
  induction ws generalizing fb with
  | nil => exact ⟨fb, rfl, fun i => by simp [lastWrite], id⟩
  | cons w ws ih =>
    obtain ⟨fb', he, hr, hwf⟩ := ih (putCell fb w.1 w.2) fun u hu => h u (by simp [hu])
    refine ⟨fb', ?_, fun i => ?_, fun hf => hwf ?_⟩
    · simpa [memWrites, memWrite, h w (by simp)] using he
    · rw [hr, lastWrite, Option.or_assoc]
      simp only [fbWord, cellAt_putCell]
      split_ifs <;> simp
    · exact cellsWithin_putCell hf (Nat.zero_le _) (h w (by simp))

/-! ## The tree -/

/-- The framebuffer words of a window of `2^depth` indices, by the bits of the index from the top. -/
inductive Tree where
  | empty
  | word (w : Word)
  | node (low high : Tree)

/-- The word at index `i` of the window. -/
def Tree.find : Nat → Tree → Nat → Option Word
  | 0, .word w, _ => some w
  | d + 1, .node low high, i => if i < 2 ^ d then low.find d i else high.find d (i - 2 ^ d)
  | _, _, _ => none

/-- The tree with the word `w` at index `i` of the window. -/
def Tree.insert : Nat → Tree → Nat → Word → Tree
  | 0, _, _, w => .word w
  | d + 1, .node low high, i, w =>
    if i < 2 ^ d then .node (low.insert d i w) high else .node low (high.insert d (i - 2 ^ d) w)
  | d + 1, _, i, w =>
    if i < 2 ^ d then .node (Tree.empty.insert d i w) .empty else .node .empty (Tree.empty.insert d (i - 2 ^ d) w)

/-- The words of a window that starts at `base`, by rising index, in front of the words above it. -/
def Tree.cells : Nat → Tree → Nat → Fb → Fb
  | 0, .word w, base, above => (base, w) :: above
  | d + 1, .node low high, base, above => low.cells d base (high.cells d (base + 2 ^ d) above)
  | _, _, _, above => above

/-- The writes of a list, made in a tree over all 2^17 = 131072 indices. -/
def Tree.insertAll : Tree → List Write → Tree
  | t, [] => t
  | t, w :: ws => Tree.insertAll (t.insert 17 w.1 w.2) ws

/-- The same framebuffer as `memWrites` gives, for a canonical framebuffer and writes inside it; else `memWrites` itself. -/
def memWritesFast (fb : Fb) (ws : List Write) : Except Fault Fb :=
  if fbWf fb && ws.all (fun w => decide (w.1 < Config.fbWords)) then
    .ok (((Tree.empty.insertAll fb).insertAll ws).cells 17 0 [])
  else memWrites fb ws

theorem Tree.find_empty (d i : Nat) : Tree.empty.find d i = none := by cases d <;> rfl

theorem Tree.find_insert (d : Nat) (t : Tree) (i j : Nat) (w : Word) (hi : i < 2 ^ d) (hj : j < 2 ^ d) :
    (t.insert d i w).find d j = if j = i then some w else t.find d j := by
  induction d generalizing t i j with
  | zero =>
    obtain rfl : i = 0 := by omega
    obtain rfl : j = 0 := by omega
    rfl
  | succ d ih =>
    rw [Nat.pow_succ] at hi hj
    cases t with
    | node low high =>
      unfold Tree.insert
      split_ifs with h1 h2 h2 <;> simp only [Tree.find] <;> split_ifs with h3 <;>
        first
          | omega
          | rfl
          | (rw [ih _ _ _ (by omega) (by omega)]; split_ifs <;> first | rfl | omega)
    | empty =>
      unfold Tree.insert
      split_ifs with h1 h2 h2 <;> simp only [Tree.find] <;> split_ifs with h3 <;>
        first
          | omega
          | rfl
          | exact Tree.find_empty _ _
          | (rw [ih _ _ _ (by omega) (by omega)]; split_ifs <;> first | rfl | omega | exact Tree.find_empty _ _)
    | word u =>
      unfold Tree.insert
      split_ifs with h1 h2 h2 <;> simp only [Tree.find] <;> split_ifs with h3 <;>
        first
          | omega
          | rfl
          | exact Tree.find_empty _ _
          | (rw [ih _ _ _ (by omega) (by omega)]; split_ifs <;> first | rfl | omega | exact Tree.find_empty _ _)

theorem Tree.find_insertAll (ws : List Write) (t : Tree) (i : Nat) (h : ∀ w ∈ ws, w.1 < 131072) (hi : i < 131072) :
    (t.insertAll ws).find 17 i = (lastWrite ws i).or (t.find 17 i) := by
  induction ws generalizing t with
  | nil => simp [Tree.insertAll, lastWrite]
  | cons w ws ih =>
    rw [Tree.insertAll, ih _ fun u hu => h u (by simp [hu]), Tree.find_insert 17 t w.1 i w.2 (h w (by simp)) hi, lastWrite,
      Option.or_assoc]
    split_ifs <;> simp

/-- A window that holds no word adds nothing. -/
theorem Tree.cells_spec_none {d : Nat} {t : Tree} {base hi : Nat} {above : Fb} (h : cellsWithin (base + 2 ^ d) hi above = true)
    (hf : ∀ i < 2 ^ d, t.find d i = none) (he : t.cells d base above = above) :
    cellsWithin base hi (t.cells d base above) = true ∧
      (∀ i < 2 ^ d, cellAt (t.cells d base above) (base + i) = t.find d i) ∧
      (∀ a, base + 2 ^ d ≤ a → cellAt (t.cells d base above) a = cellAt above a) := by
  have := Nat.two_pow_pos d
  rw [he]
  exact ⟨cellsWithin_mono (by omega) h, fun i hi => by rw [cellAt_below h (by omega), hf i hi], fun _ _ => rfl⟩

/-- The words of a window in front of the words above it: canonical, and they read as the window and the words above do. -/
theorem Tree.cells_spec (d : Nat) (t : Tree) (base hi : Nat) (above : Fb) (h : cellsWithin (base + 2 ^ d) hi above = true)
    (hhi : base + 2 ^ d ≤ hi) :
    cellsWithin base hi (t.cells d base above) = true ∧
      (∀ i < 2 ^ d, cellAt (t.cells d base above) (base + i) = t.find d i) ∧
      (∀ a, base + 2 ^ d ≤ a → cellAt (t.cells d base above) a = cellAt above a) := by
  induction d generalizing t base above with
  | zero =>
    cases t with
    | word w =>
      refine ⟨?_, fun i hi => ?_, fun a ha => ?_⟩
      · simp only [Tree.cells, cellsWithin, Bool.and_eq_true, decide_eq_true_eq]
        exact ⟨⟨Nat.le_refl _, by omega⟩, h⟩
      · obtain rfl : i = 0 := by omega
        simp [Tree.cells, cellAt, Tree.find]
      · rw [Tree.cells, cellAt, if_neg (by omega)]
    | empty => exact Tree.cells_spec_none h (fun i _ => rfl) rfl
    | node low high => exact Tree.cells_spec_none h (fun i _ => rfl) rfl
  | succ d ih =>
    cases t with
    | word w => exact Tree.cells_spec_none h (fun i _ => rfl) rfl
    | empty => exact Tree.cells_spec_none h (fun i _ => rfl) rfl
    | node low high =>
      have := Nat.two_pow_pos d
      have h2 : base + 2 ^ (d + 1) = base + 2 ^ d + 2 ^ d := by rw [Nat.pow_succ]; omega
      rw [h2] at h hhi
      obtain ⟨w1, f1, a1⟩ := ih high (base + 2 ^ d) above h hhi
      obtain ⟨w2, f2, a2⟩ := ih low base (high.cells d (base + 2 ^ d) above) w1 (by omega)
      refine ⟨w2, fun i hi => ?_, fun a ha => ?_⟩
      · rw [Nat.pow_succ] at hi
        simp only [Tree.cells, Tree.find]
        split_ifs with hlt
        · exact f2 i hlt
        · have := f1 (i - 2 ^ d) (by omega)
          rw [show base + 2 ^ d + (i - 2 ^ d) = base + i by omega] at this
          rw [a2 _ (by omega), this]
      · rw [h2] at ha
        rw [Tree.cells, a2 _ (by omega), a1 _ ha]

/-- A canonical framebuffer is what its own words, written in order, leave. -/
theorem lastWrite_self {lo hi : Nat} {fb : Fb} (h : cellsWithin lo hi fb = true) (i : Nat) : lastWrite fb i = cellAt fb i := by
  induction fb generalizing lo with
  | nil => rfl
  | cons c rest ih =>
    obtain ⟨k, w⟩ := c
    simp only [cellsWithin, Bool.and_eq_true, decide_eq_true_eq] at h
    rw [lastWrite, ih h.2, cellAt]
    split_ifs with hk
    · rw [cellAt_below h.2 (by omega)]; rfl
    · simp

theorem mem_within {α : Type} {lo hi : Nat} {m : List (Nat × α)} (h : cellsWithin lo hi m = true) : ∀ c ∈ m, c.1 < hi := by
  induction m generalizing lo with
  | nil => intro c hc; cases hc
  | cons d rest ih =>
    simp only [cellsWithin, Bool.and_eq_true, decide_eq_true_eq] at h
    intro c hc
    rcases List.mem_cons.1 hc with rfl | hc
    · exact h.1.2
    · exact ih h.2 c hc

/-- The two ways to run the writes are one function. -/
@[csimp] theorem memWrites_eq_memWritesFast : @memWrites = @memWritesFast := by
  funext fb ws
  unfold memWritesFast
  split_ifs with h
  · simp only [Bool.and_eq_true, List.all_eq_true, decide_eq_true_eq] at h
    obtain ⟨hfb, hws⟩ := h
    obtain ⟨fb', he, hr, hwf⟩ := memWrites_ok fb hws
    obtain ⟨hw, hf, -⟩ := Tree.cells_spec 17 ((Tree.empty.insertAll fb).insertAll ws) 0 131072 [] rfl (by decide)
    rw [he]
    refine congrArg _ (cells_ext (hwf hfb) hw fun i => ?_)
    by_cases hi : i < 131072
    · have := hf i hi
      rw [Nat.zero_add] at this
      rw [this, Tree.find_insertAll ws _ i hws hi, Tree.find_insertAll fb _ i (mem_within hfb) hi, Tree.find_empty,
        lastWrite_self hfb]
      simpa [fbWord] using hr i
    · rw [cellAt_above (hwf hfb) (by simp only [Config.fbWords]; omega), cellAt_above hw (by omega)]
  · rfl

end Sys2Proof.Machine
end

