-- ==== Sys2Proof/Machine/Operands.lean ====
section
/-! DEFINITION. tilemap_address_resolver (41_tilemap_address_resolver.md): the block's only addressing modes, from a tile id or
a map cell to the VRAM offset of a tile's data. Offsets are integers (R13): nothing wraps. -/

namespace Sys2Proof.Machine

/-- `sext_8(b)` (00_scope.md R14): the byte read as a signed two's-complement number. -/
def sext8 (b : Byte) : Int := if b.toNat < 128 then b.toNat else (b.toNat : Int) - 256

/-- `RES_DIRECT(id)` (R120). -/
def resDirect (id : Nat) : Int := id * 16

/-- The map base of `DMAP` (R123). -/
def mapBase : MapSelect → Nat
  | .map0 => Config.mapBase0
  | .map1 => Config.mapBase1

/-- `MAP_ENTRY(map_base, x, y)` (R122): the tile id in one cell of a tilemap. -/
def mapEntry (v : Vram) (base x y : Nat) : Except Fault Byte := memRead v ((base + y * 32 + x : Nat) : Int)

/-- `RES_UNSIGNED(b)` (R124). -/
def resUnsigned (b : Byte) : Int := Config.tileDataBase + b.toNat * 16

/-- `RES_SIGNED(b)` (R126): the entry read as a signed number, from the mid-point base `SIGNED_BASE`. -/
def resSigned (c : Config) (b : Byte) : Int := c.signedBase + sext8 b * 16

/-- `RESOLVE(sg, b)` (R128). -/
def resolve (c : Config) : Addressing → Byte → Int
  | .unsigned, b => resUnsigned b
  | .signed, b => resSigned c b

end Sys2Proof.Machine
end

