-- ==== Sys2Proof/Machine/Palette.lean ====
section
/-! DEFINITION. palette_lut (42_palette_lut.md): from a colour index to a framebuffer word, under one of the two profiles. -/

namespace Sys2Proof.Machine

/-- `PAL_RGBA(k)` (R135): the finished word of the table. -/
def palRgba (c : Config) (k : ColorIndex) : Word := c.pal.get k.toFin

/-- `PAL_GRAY(k)` (R139). -/
def palGray (c : Config) (k : ColorIndex) : Word := grayWord (c.shade.get k.toFin)

/-- `COLOR(pr, k)` (R140). -/
def color (c : Config) : Profile → ColorIndex → Word
  | .rgba, k => palRgba c k
  | .gray, k => palGray c k

end Sys2Proof.Machine
end

