-- ==== Sys2Proof/Machine/Raster.lean ====
section
/-! DEFINITION. frame_rasterizer (43_frame_rasterizer.md): placement, the prefill, the blit of one tile, and the pass. A phase
is the list of the writes it makes, in the canonical order of 10_state.md R24. -/

namespace Sys2Proof.Machine

/-- `FB_INDEX(out_w, tx, ty, row, col)` (R145). -/
def fbIndex (outW tx ty : Nat) (r c : Fin 8) : Nat := (ty * 8 + r.val) * outW + (tx * 8 + c.val)

/-- `PREFILL(out_w, out_h)` (R146): the sentinel to the whole output area. -/
def prefill (c : Config) (outW outH : Nat) : List Write := (List.range (outW * outH)).map fun i => (i, c.sentinel)

/-- `BLIT(out_w, tx, ty, off, pr)` (R148): decode one tile and write its 64 pixels. -/
def blit (c : Config) (v : Vram) (outW tx ty : Nat) (off : Int) (pr : Profile) : Except Fault (List Write) :=
  collect (List.finRange 8) fun r =>
    match rowBytes v off r with
    | .error e => .error e
    | .ok (lo, hi) =>
      .ok ((List.finRange 8).map fun col => (fbIndex outW tx ty r col, color c pr (pix lo hi col)))

/-- The walk (R151 phase 3) over a grid of `gw` × `gh` tile positions, row by row; `cell tx ty` is what is drawn at one. -/
def walk (gw gh : Nat) (cell : Nat → Nat → Except Fault (List Write)) : Except Fault (List Write) :=
  collect (List.range gh) fun ty => collect (List.range gw) fun tx => cell tx ty

/-- Phases 2 to 4 of a pass (R151) whose output area is `gw` × `gh` tiles of 8 × 8 pixels (30_encoding.md R85): prefill, walk,
complete. -/
def runPass (gw gh : Nat) (cell : Nat → Nat → Except Fault (List Write)) (s : State) : Host.Outcome State Fault Refusal :=
  match walk gw gh cell with
  | .error e => .fault e
  | .ok writes =>
    match memWrites s.fb (prefill s.cfg (8 * gw) (8 * gh) ++ writes) with
    | .error e => .fault e
    | .ok fb => .next (s.completePass fb (8 * gw) (8 * gh))

end Sys2Proof.Machine
end

