-- ==== Sys2Proof/Machine/Direct.lean ====
section
/-! DEFINITION. The direct tile array command (43_frame_rasterizer.md section 5): `DTILE`. -/

namespace Sys2Proof.Machine

/-- What `DTILE` draws at tile position (tx, ty) (R158): the tile with id `ty*gw + tx` while it is below `n`, else nothing. -/
def dtileCell (c : Config) (v : Vram) (n gw : Nat) (pr : Profile) (tx ty : Nat) : Except Fault (List Write) :=
  let id := ty * gw + tx
  if id < n then blit c v (8 * gw) tx ty (resDirect id) pr else .ok []

/-- `DTILE` (R158). -/
def execDtile (n : BitVec 11) (gw : BitVec 6) (gh : BitVec 7) (pr : Profile) (s : State) :
    Host.Outcome State Fault Refusal :=
  underCheck (.dtile n gw gh pr)
    (fun v s => runPass gw.toNat gh.toNat (dtileCell s.cfg v n.toNat gw.toNat pr) s) s

end Sys2Proof.Machine
end

