-- ==== Sys2Proof/Machine/Tilemap.lean ====
section
/-! DEFINITION. The tilemap commands (43_frame_rasterizer.md sections 3 and 4): `DMAP` and `DDUAL`. -/

namespace Sys2Proof.Machine

/-- What `DMAP` draws at tile position (tx, ty) (R152): the tile its map cell names. -/
def dmapCell (c : Config) (v : Vram) (ms : MapSelect) (sg : Addressing) (pr : Profile) (tx ty : Nat) :
    Except Fault (List Write) :=
  match mapEntry v (mapBase ms) tx ty with
  | .error e => .error e
  | .ok b => blit c v 256 tx ty (resolve c sg b) pr

/-- What `DDUAL` draws at tile position (tx, ty) (R155): map rows 0..31 unsigned in the RGBA profile, rows 32..63 signed in the
profile of the command. The entry formula continues into tilemap 1 (R123). -/
def ddualCell (c : Config) (v : Vram) (pr : Profile) (tx ty : Nat) : Except Fault (List Write) :=
  match mapEntry v Config.mapBase0 tx ty with
  | .error e => .error e
  | .ok b =>
    if ty < Config.dualSplit then blit c v 256 tx ty (resUnsigned b) .rgba
    else blit c v 256 tx ty (resSigned c b) pr

/-- `DMAP` (R152). -/
def execDmap (ms : MapSelect) (sg : Addressing) (pr : Profile) (s : State) : Host.Outcome State Fault Refusal :=
  underCheck (.dmap ms sg pr)
    (fun v s => runPass Config.mapSize Config.mapSize (dmapCell s.cfg v ms sg pr) s) s

/-- `DDUAL` (R155). -/
def execDdual (pr : Profile) (s : State) : Host.Outcome State Fault Refusal :=
  underCheck (.ddual pr) (fun v s => runPass Config.mapSize Config.dualRows (ddualCell s.cfg v pr) s) s

end Sys2Proof.Machine
end

