-- ==== Sys2Proof/Machine/Dispatch.lean ====
section
/-! DEFINITION. Every command of the opcode map and its meaning (30_encoding.md R86). -/

namespace Sys2Proof.Machine

def exec (i : Instr) (s : State) : Host.Outcome State Fault Refusal :=
  match i with
  | .dmap ms sg pr => Sys2Proof.Machine.execDmap ms sg pr s
  | .ddual pr => Sys2Proof.Machine.execDdual pr s
  | .dtile n gw gh pr => Sys2Proof.Machine.execDtile n gw gh pr s

end Sys2Proof.Machine
end

