-- ==== Sys2Proof/Machine/Flags.lean ====
section
/-! DEFINITION. The readable registers (10_state.md R29 to R35): `STATUS`, `DIMS` and `FCMD` as views of the state. The block
has no condition codes; these are its only flags (R34). -/

namespace Sys2Proof.Machine

/-- The code of a cause (60_exceptions.md R175). -/
def Cause.code : Cause → BitVec 4
  | .illegalCommand => 1#4
  | .vramNotLoaded => 2#4
  | .vramOutOfRange => 3#4

/-- `STATUS.CAUSE` (R31): the code of the recorded fault, 0 when there is none. -/
def State.causeField (s : State) : BitVec 4 :=
  match s.fault with
  | none => 0#4
  | some f => f.cause.code

/-- Register 1, `STATUS` (R31), from bit 31 down: 24 reserved bits, `CAUSE`, a reserved bit, `HASGRAY`, `LOADED`, `FAULT`. -/
def State.status (s : State) : Word :=
  0#24 ++ s.causeField ++ 0#1 ++ BitVec.ofBool s.cfg.hasGray ++ BitVec.ofBool s.vram.isSome ++ BitVec.ofBool s.fault.isSome

/-- Register 2, `DIMS` (R32), from bit 31 down: 6 reserved bits, `OUT_H`, 6 reserved bits, `OUT_W`. -/
def State.dims (s : State) : Word := 0#6 ++ s.outH ++ 0#6 ++ s.outW

/-- Register 3, `FCMD` (R33): the command word that faulted, 0 when none has. -/
def State.fcmd (s : State) : Word :=
  match s.fault with
  | none => 0#32
  | some f => f.cmd

/-- The readable registers by number (R29); no other number has a meaning (R35). -/
def State.register (s : State) (r : Nat) : Option Word :=
  if r = 1 then some s.status
  else if r = 2 then some s.dims
  else if r = 3 then some s.fcmd
  else none

end Sys2Proof.Machine
end

