-- ==== Sys2Proof/Machine/HostPort.lean ====
section
/-! DEFINITION. The five transactions of the host (60_exceptions.md R170 to R174). -/

namespace Sys2Proof.Machine

/-- `LOAD_VRAM(buf)` (R171): all 8192 bytes at once; a buffer of another length is no transaction (U12). -/
def loadVram (buf : List Byte) (s : State) : Host.Outcome State Fault Refusal :=
  if buf.length = Config.vramSize then .next (s.loadBuffer buf) else .refused (.loadVramWrongLength buf.length)

/-- `ISSUE(w)` (R172): the command the word has the shape of runs its check and its pass; any other word is rejected. -/
def issue (w : Word) (s : State) : Host.Outcome State Fault Refusal :=
  match decode w with
  | .error _ => rejectWord w s
  | .ok i => exec i s

/-- `READ_REG(r)` (R173); numbers with no readable register are no move of the host (R35). -/
def readReg (r : Nat) (s : State) : Host.Outcome State Fault Refusal :=
  match s.register r with
  | some w => .next (s.answer w)
  | none => .refused (.readRegUndefined r)

/-- `READ_FB(i)` (R174): the value of a word that holds one. -/
def readFb (i : Nat) (s : State) : Host.Outcome State Fault Refusal :=
  if i < Config.fbWords then
    match fbWord s.fb i with
    | some w => .next (s.answer w)
    | none => .refused (.readFbNoValue i)
  else .refused (.readFbOutOfRange i)

/-- One transaction, as one step (R18, R170). -/
def perform (t : Transaction) (s : State) : Host.Outcome State Fault Refusal :=
  match t with
  | .reset => .next s.resetBlock
  | .loadVram buf => loadVram buf s
  | .issue w => issue w s
  | .readReg r => readReg r s
  | .readFb i => readFb i s

/-- The host makes its next transaction; with none to make, the block is idle (R187, log 1). -/
def hostStep (s : State) : Host.Outcome State Fault Refusal :=
  match s.pending with
  | [] => .next s
  | t :: rest => perform t (s.nextTransaction rest)

end Sys2Proof.Machine
end

