-- ==== Sys2Proof/Machine/Step.lean ====
section
/-! DEFINITION. One step of the machine: the next transaction of the host (60_exceptions.md R170). The block has no program
counter and fetches nothing (10_state.md R21); its next command is the word of the host's next `ISSUE`. -/

namespace Sys2Proof.Machine

/-- One step. -/
def step (s : State) : Host.Outcome State Fault Refusal := hostStep s

/-- The state in which the next step issues the command word of the opcode table's numbering (log 1). -/
def State.withFetchWord (s : State) (nbits w : Nat) : State :=
  { s with pending := .issue (tableWord nbits w) :: s.pending }

end Sys2Proof.Machine
end

