-- ==== Sys2Proof/Machine/Outcome.lean ====
section
/-! DEFINITION. The outcomes of a step and the final state of a run, as 60_exceptions.md R191 and 70_reset_and_hazards.md R209
read them. The host's interface has a fault outcome that carries no state; the block's fault leaves one (R176), so it is told
apart here, with the state it leaves (log 5). -/

namespace Sys2Proof.Machine

/-- The outcomes of a step (R191). -/
inductive StepOutcome where
  /-- A real step, with its effect or (an `ISSUE` after a fault, R178) with none. -/
  | effect (t : State)
  /-- A fault of R175: the record it makes and the faulted state, in which the host's `ISSUE` has returned (R176). -/
  | fault (f : FaultRecord) (t : State)
  /-- No move of the host (R35, R173, R174). -/
  | noMove (r : Refusal)
  /-- A stop of the model's own; no step makes one (log 11). -/
  | stop (e : Fault)
  deriving DecidableEq, Repr

/-- The fault raised between the state `s` and the next state `t`: the record in `t`, if `s` had none. -/
def raisedFault (s t : State) : Option FaultRecord := if s.fault.isSome then none else t.fault

/-- The outcome `o` of a step or a command from the state `s`, as R191 reads it: a next state with a new fault record is a fault
outcome. -/
def outcomeFrom (s : State) (o : Host.Outcome State Fault Refusal) : StepOutcome :=
  match o with
  | .next t =>
    match raisedFault s t with
    | some f => .fault f t
    | none => .effect t
  | .fault e => .stop e
  | .refused r => .noMove r

/-- The outcome of one step (R191). -/
def stepOutcome (s : State) : StepOutcome := outcomeFrom s (step s)

/-- The state is final: the host's last transaction has returned (R209) and no fault is recorded ("the faulted state is never
final", R191). -/
def State.final (s : State) : Bool := s.pending.isEmpty && s.fault.isNone

/-- The state after `k` steps, if each of them answers and the last state is final. -/
def finalAfter : Nat → State → Option State
  | 0, s => if s.final then some s else none
  | k + 1, s =>
    match step s with
    | .next t => finalAfter k t
    | .fault _ => none
    | .refused _ => none

/-- The final state of the run of all transactions the host has still to make (R209), if the run has one: a run that ends
faulted, or that makes a move the host does not have, has none (R191). -/
def State.finalState (s : State) : Option State := finalAfter s.pending.length s

end Sys2Proof.Machine
end

