-- ==== Sys2Proof/Safety.lean ====
section
/-! DEFINITION. The terms the claims are stated in: the output area of a command, the constraint on the sentinel, and the
invariants of the machine. -/

namespace Sys2Proof

open Sys2Proof.Machine

/-- `n mod 8` as a pixel row or column of a tile (43_frame_rasterizer.md R163: the field `[2:0]`). -/
def mod8 (n : Nat) : Fin 8 := ⟨n % 8, Nat.mod_lt n (Nat.succ_pos 7)⟩

/-- `OUT_W` and `OUT_H` of a command (30_encoding.md R85). -/
def outputSize : Instr → Nat × Nat
  | .dmap _ _ _ => (256, 256)
  | .ddual _ => (256, 512)
  | .dtile _ gw gh _ => (8 * gw.toNat, 8 * gh.toNat)

/-- The constraint R142 puts on a configuration, in colours: the sentinel is none that a profile of the block can produce. Every
configuration meets it (`Config.valid`). -/
abbrev Config.SentinelDistinct (c : Config) : Prop :=
  (∀ k, palRgba c k ≠ c.sentinel) ∧ (c.hasGray = true → ∀ k, palGray c k ≠ c.sentinel)

/-- What holds of the memories and of `DIMS` in every state a run reaches. -/
structure Machine.State.Inv (s : State) : Prop where
  /-- A loaded VRAM is in canonical form, inside its 8192 bytes (R25). -/
  vramCanonical : ∀ v, s.vram = some v → vramWf v = true
  /-- The framebuffer is in canonical form, inside its 131072 words (R27). -/
  fbCanonical : fbWf s.fb = true
  /-- `OUT_W` is one of 0, 8, 16, ..., 256 (R32). -/
  widthLegal : s.outW.toNat % 8 = 0 ∧ s.outW.toNat ≤ 256
  /-- `OUT_H` is one of 0, 8, 16, ..., 512 (R32). -/
  heightLegal : s.outH.toNat % 8 = 0 ∧ s.outH.toNat ≤ 512
  /-- Both are 0 until a pass has completed, and neither after one (R32). -/
  dimsTogether : s.outW = 0#10 ↔ s.outH = 0#10
  /-- Every word of the output area of the last completed pass holds a value (R203). -/
  areaHeld : ∀ i < s.outW.toNat * s.outH.toNat, (fbWord s.fb i).isSome = true

/-- The fault record names a word that has its cause (R175): the word is illegal exactly for cause 1, and a `DTILE` beyond
VRAM for cause 3. -/
def Machine.State.FaultRecordTrue (s : State) : Prop :=
  ∀ f, s.fault = some f →
    match f.cause with
    | .illegalCommand => decodeCommand s.cfg f.cmd = none
    | .vramNotLoaded => ∃ i, decodeCommand s.cfg f.cmd = some i
    | .vramOutOfRange => ∃ n gw gh pr, decodeCommand s.cfg f.cmd = some (.dtile n gw gh pr) ∧
        512 < min n.toNat (gw.toNat * gh.toNat)

/-- A step is safe when it is none of the model's own faults: no access outside a memory was made. -/
def Safe (o : Host.Outcome State Fault Refusal) : Prop := ∀ e, o ≠ .fault e

end Sys2Proof
end

