-- ==== Sys2Proof/Certificates/Slice0/Obligations.lean ====
section
/-! DEFINITION. The statements of this model, from the numbered rules of spec/ file by file. -/

open Sys2Proof Sys2Proof.Machine

/-! ## tile_bitplane_decoder (40_bitplane_decoder.md) -/

/-- R110, R111: index bit 0 is bit `7 - col` of the low byte and index bit 1 that of the high byte, nothing else matters, and the
four indices cover the four pairs of bits one to one; with the form in shifts, which R111 marks as derived. -/
def Obligations.PixelIndexFromBitPair : Prop :=
  (∀ (lo hi : Byte) (col : Fin 8),
    (pix lo hi col).toNat = 2 * (hi.getLsbD (7 - col.val)).toNat + (lo.getLsbD (7 - col.val)).toNat ∧
    (pix lo hi col).toNat = (((hi.toNat >>> (7 - col.val)) &&& 1) <<< 1) ||| ((lo.toNat >>> (7 - col.val)) &&& 1)) ∧
  (∀ (lo hi lo' hi' : Byte) (col col' : Fin 8), pix lo hi col = pix lo' hi' col' ↔
    lo.getLsbD (7 - col.val) = lo'.getLsbD (7 - col'.val) ∧ hi.getLsbD (7 - col.val) = hi'.getLsbD (7 - col'.val)) ∧
  (∀ (k : ColorIndex) (col : Fin 8), ∃ lo hi : Byte, pix lo hi col = k)

/-- R112: a row is eight lanes, lane `col` the pixel of column `col`; with the corner cases of the rule. -/
def Obligations.RowIsEightPixels : Prop :=
  (∀ (lo hi : Byte) (col : Fin 8), (row lo hi).get col = pix lo hi col) ∧
  (row 0x00#8 0x00#8).toList = [0, 0, 0, 0, 0, 0, 0, 0] ∧ (row 0xFF#8 0xFF#8).toList = [3, 3, 3, 3, 3, 3, 3, 3] ∧
  (row 0xFF#8 0x00#8).toList = [1, 1, 1, 1, 1, 1, 1, 1] ∧ (row 0x00#8 0xFF#8).toList = [2, 2, 2, 2, 2, 2, 2, 2] ∧
  (row 0x80#8 0x00#8).toList = [1, 0, 0, 0, 0, 0, 0, 0] ∧ (row 0x01#8 0x00#8).toList = [0, 0, 0, 0, 0, 0, 0, 1] ∧
  (row 0x3C#8 0x7E#8).toList = [0, 2, 3, 3, 3, 3, 2, 0]

/-- R114 over the layout of R113: a tile inside VRAM decodes to eight rows, row `r` from the bytes at `off + 2r` and
`off + 2r + 1`, and depends on its own 16 bytes only. That the rows follow one another from the top down is the spec's own
inference ("[from general knowledge, not in source]", R113; log 9). -/
def Obligations.TileDecodesItsSixteenBytes : Prop :=
  ∀ (v : Vram) (off : Int), 0 ≤ off → off + 15 ≤ 8191 →
    (∃ rows, tile v off = .ok rows ∧ rows.length = 8 ∧
      ∀ r : Fin 8, ∃ lo hi, memRead v (off + 2 * r.val) = .ok lo ∧ memRead v (off + 2 * r.val + 1) = .ok hi ∧
        rows[r.val]? = some (row lo hi)) ∧
    (∀ v' : Vram, (∀ k : Fin 16, memRead v' (off + k.val) = memRead v (off + k.val)) → tile v' off = tile v off)

/-- R148: the writes of a blit are, in order, the pixels of the decoded tile at the indices of its position. -/
def Obligations.BlitPlacesTheDecodedTile : Prop :=
  ∀ (c : Config) (v : Vram) (outW tx ty : Nat) (off : Int) (pr : Profile) (rows : List (Vector ColorIndex 8)),
    tile v off = .ok rows →
      ∃ ws, blit c v outW tx ty off pr = .ok ws ∧ ws.length = 64 ∧
        ∀ r col : Fin 8, ∃ cells, rows[r.val]? = some cells ∧
          ws[8 * r.val + col.val]? = some (fbIndex outW tx ty r col, color c pr (cells.get col))

/-! ## tilemap_address_resolver (41_tilemap_address_resolver.md) -/

/-- R120, R124, R126: the three resolver forms, with their ranges and the corner cases of the rules (for the signed form, on
every configuration, those of 90_conflicts.md C1). -/
def Obligations.ResolverForms : Prop :=
  (∀ id : Nat, resDirect id = 16 * (id : Int)) ∧
  (∀ b : Byte, resUnsigned b = 16 * (b.toNat : Int) ∧ 0x0000 ≤ resUnsigned b ∧ resUnsigned b ≤ 0x0FF0) ∧
  (∀ (c : Config) (b : Byte),
    (b.toNat < 128 → resSigned c b = 0x1000 + (b.toNat : Int) * 16) ∧
    (128 ≤ b.toNat → resSigned c b = 0x1000 + ((b.toNat : Int) - 256) * 16) ∧
    0x0800 ≤ resSigned c b ∧ resSigned c b ≤ 0x17F0) ∧
  resDirect 0 = 0x0000 ∧ resDirect 1 = 0x0010 ∧ resDirect 383 = 0x17F0 ∧ resDirect 384 = 0x1800 ∧ resDirect 511 = 0x1FF0 ∧
  resDirect 512 = 0x2000 ∧
  resUnsigned 0x00#8 = 0x0000 ∧ resUnsigned 0x80#8 = 0x0800 ∧ resUnsigned 0xFF#8 = 0x0FF0 ∧
  ∀ c : Config, resSigned c 0x00#8 = 0x1000 ∧ resSigned c 0x7F#8 = 0x17F0 ∧ resSigned c 0x80#8 = 0x0800 ∧
    resSigned c 0xFF#8 = 0x0FF0

/-- The spec's derived properties of the resolver: unsigned addressing is direct addressing of ids 0..255 (R125); the
fixed-width forms give the same offsets (R130); from entry 0x80 up both addressings give `b*16` and below they differ by 0x1000
(R62 (a), R128); and no result of a tilemap mode leaves VRAM (R131): the map entries of both maps and of the 32×64 region are
read, and the 16 bytes of the tile an entry resolves to are read. -/
def Obligations.ResolverWindowsAndForms : Prop :=
  (∀ b : Byte, resUnsigned b = resDirect b.toNat) ∧
  (∀ (c : Config) (b : Byte),
    resUnsigned b = ((b.toNat <<< 4 : Nat) : Int) ∧
    resSigned c b = ((((b ^^^ 0x80#8).toNat <<< 4) + 0x0800 : Nat) : Int) ∧
    (b.getLsbD 7 = true → resSigned c b = ((b.toNat <<< 4 : Nat) : Int)) ∧
    (b.getLsbD 7 = false → resSigned c b = (((b.toNat <<< 4) + 0x1000 : Nat) : Int))) ∧
  (∀ (c : Config) (b : Byte),
    (0x80 ≤ b.toNat → resolve c .signed b = 16 * (b.toNat : Int) ∧ resolve c .unsigned b = 16 * (b.toNat : Int)) ∧
    (b.toNat < 0x80 → resolve c .signed b = resolve c .unsigned b + 0x1000)) ∧
  (∀ x y : Nat, x < 32 → y < 32 →
    0x1800 ≤ mapBase .map0 + y * 32 + x ∧ mapBase .map0 + y * 32 + x ≤ 0x1BFF ∧
    0x1C00 ≤ mapBase .map1 + y * 32 + x ∧ mapBase .map1 + y * 32 + x ≤ 0x1FFF) ∧
  (∀ (v : Vram) (ms : MapSelect) (x y : Nat), x < 32 → y < 32 → ∃ b, mapEntry v (mapBase ms) x y = .ok b) ∧
  (∀ (v : Vram) (x y : Nat), x < 32 → y < 64 → ∃ b, mapEntry v 0x1800 x y = .ok b) ∧
  (∀ (c : Config) (v : Vram) (sg : Addressing) (b : Byte) (k : Fin 16),
    ∃ byte, memRead v (resolve c sg b + k.val) = .ok byte)

/-! ## palette_lut (42_palette_lut.md) -/

/-- R135, R138 (with R139, R140): each profile is its own four-entry table; the gray word is its shade in R, G and B with full
alpha, the sum of the four fields. -/
def Obligations.ColorByProfile : Prop :=
  (∀ (c : Config) (k : ColorIndex), palRgba c k = c.pal.get k.toFin ∧
    color c .rgba k = c.pal.get k.toFin ∧ color c .gray k = grayWord (c.shade.get k.toFin)) ∧
  (∀ s : Byte,
    channelR (grayWord s) = s ∧ channelG (grayWord s) = s ∧ channelB (grayWord s) = s ∧ channelA (grayWord s) = 0xFF#8 ∧
    (grayWord s).toNat = s.toNat * 2 ^ 24 + s.toNat * 2 ^ 16 + s.toNat * 2 ^ 8 + 0xFF) ∧
  grayWord 0x00#8 = 0x000000FF#32 ∧ grayWord 0xFF#8 = 0xFFFFFFFF#32 ∧ grayWord 0x90#8 = 0x909090FF#32

/-! ## Placement (43_frame_rasterizer.md section 1) -/

/-- R145: the index of a pixel inside the output area of a grid, its range and its corner cases. -/
def Obligations.PixelIndexInsideOutputArea : Prop :=
  (∀ (gw gh tx ty : Nat) (r col : Fin 8), gw ≤ 32 → gh ≤ 64 → tx < gw → ty < gh →
    fbIndex (8 * gw) tx ty r col = (ty * 8 + r.val) * (8 * gw) + (tx * 8 + col.val) ∧
    fbIndex (8 * gw) tx ty r col ≤ 8 * gw * (8 * gh) - 1 ∧ fbIndex (8 * gw) tx ty r col < 131072) ∧
  (∀ outW : Nat, fbIndex outW 0 0 0 0 = 0 ∧ fbIndex outW 0 0 7 7 = 7 * outW + 7 ∧ fbIndex outW 1 0 0 0 = 8 ∧
    fbIndex outW 0 1 0 0 = 8 * outW) ∧
  fbIndex 256 31 63 7 7 = 131071 ∧ fbIndex 256 1 2 3 4 = 4876

/-- R149: for one width the placement is one to one, and it is onto the output area: pixel (px, py) comes from the tuple of its
quotients and remainders by 8 and from no other. -/
def Obligations.PlacementIsOneToOne : Prop :=
  ∀ gw : Nat,
    (∀ (tx ty tx' ty' : Nat) (r col r' col' : Fin 8), tx < gw → tx' < gw →
      fbIndex (8 * gw) tx ty r col = fbIndex (8 * gw) tx' ty' r' col' → tx = tx' ∧ ty = ty' ∧ r = r' ∧ col = col') ∧
    (∀ px py : Nat, px < 8 * gw →
      fbIndex (8 * gw) (px / 8) (py / 8) (mod8 py) (mod8 px) = py * (8 * gw) + px ∧
      ∀ (tx ty : Nat) (r col : Fin 8), tx < gw → fbIndex (8 * gw) tx ty r col = py * (8 * gw) + px →
        tx = px / 8 ∧ ty = py / 8 ∧ r = mod8 py ∧ col = mod8 px)

/-! ## The memories (20_memory.md) -/

/-- R53: `MemRead` answers a byte inside VRAM and is a fault of the model outside (the stop is the model's, log 11); it never
wraps. -/
def Obligations.VramReadIsBoundsChecked : Prop :=
  ∀ (v : Vram) (a : Int),
    (0 ≤ a → a ≤ 8191 → ∃ b, memRead v a = .ok b) ∧
    (a < 0 ∨ 8191 < a → memRead v a = .error (.vramReadOutOfRange a))

/-- R56: `MemWrite` makes its word hold the value and has no other effect; outside the framebuffer it is a fault
of the model, which is the model's own stop (log 11). -/
def Obligations.FbWriteChangesOneWord : Prop :=
  ∀ (fb : Fb) (i : Nat) (w : Word),
    (i ≤ 131071 → ∃ fb', memWrite fb (i, w) = .ok fb' ∧ fbWord fb' i = some w ∧
      (∀ j, j ≠ i → fbWord fb' j = fbWord fb j) ∧ (fbWf fb = true → fbWf fb' = true)) ∧
    (131071 < i → memWrite fb (i, w) = .error (.fbWriteOutOfRange i))

/-! ## The walk (43_frame_rasterizer.md R150, 10_state.md R24) -/

/-- R150: in the walk of every command each framebuffer word of the covered region is written exactly once, and no word outside
it. The covered region of `DTILE` is that of the grid positions with an id below `n`. -/
def Obligations.WalkWritesEachCoveredWordOnce : Prop :=
  (∀ (c : Config) (v : Vram) (ms : MapSelect) (sg : Addressing) (pr : Profile),
    ∃ ws, walk 32 32 (dmapCell c v ms sg pr) = .ok ws ∧ (ws.map Prod.fst).Nodup ∧
      ∀ i, i ∈ ws.map Prod.fst ↔ i < 65536) ∧
  (∀ (c : Config) (v : Vram) (pr : Profile),
    ∃ ws, walk 32 64 (ddualCell c v pr) = .ok ws ∧ (ws.map Prod.fst).Nodup ∧
      ∀ i, i ∈ ws.map Prod.fst ↔ i < 131072) ∧
  (∀ (c : Config) (v : Vram) (n gw gh : Nat) (pr : Profile), min n (gw * gh) ≤ 512 →
    ∃ ws, walk gw gh (dtileCell c v n gw pr) = .ok ws ∧ (ws.map Prod.fst).Nodup ∧
      ∀ i, i ∈ ws.map Prod.fst ↔
        ∃ px py, px < 8 * gw ∧ py < 8 * gh ∧ (py / 8) * gw + px / 8 < n ∧ i = py * (8 * gw) + px)

/-- R24: writes that name each word at most once leave the same framebuffer in every order. -/
def Obligations.WalkOrderIsNotObservable : Prop :=
  ∀ (fb : Fb) (ws ws' : List Write), fbWf fb = true → (∀ w ∈ ws, w.1 < 131072) → (ws.map Prod.fst).Nodup →
    ws.Perm ws' → memWrites fb ws = memWrites fb ws'

/-- R161: which words a walk writes, and in which order, depends on the command alone, never on a byte of VRAM. -/
def Obligations.WrittenWordsIndependentOfVram : Prop :=
  (∀ (c : Config) (v v' : Vram) (ms : MapSelect) (sg : Addressing) (pr : Profile),
    ∃ ws ws', walk 32 32 (dmapCell c v ms sg pr) = .ok ws ∧ walk 32 32 (dmapCell c v' ms sg pr) = .ok ws' ∧
      ws.map Prod.fst = ws'.map Prod.fst) ∧
  (∀ (c : Config) (v v' : Vram) (pr : Profile),
    ∃ ws ws', walk 32 64 (ddualCell c v pr) = .ok ws ∧ walk 32 64 (ddualCell c v' pr) = .ok ws' ∧
      ws.map Prod.fst = ws'.map Prod.fst) ∧
  (∀ (c : Config) (v v' : Vram) (n gw gh : Nat) (pr : Profile), min n (gw * gh) ≤ 512 →
    ∃ ws ws', walk gw gh (dtileCell c v n gw pr) = .ok ws ∧ walk gw gh (dtileCell c v' n gw pr) = .ok ws' ∧
      ws.map Prod.fst = ws'.map Prod.fst)

/-- R208: the numbers of writes of each command. -/
def Obligations.WriteCounts : Prop :=
  (∀ (c : Config) (gw gh : Nat), (prefill c (8 * gw) (8 * gh)).length = 64 * gw * gh) ∧
  (∀ (c : Config) (v : Vram) (ms : MapSelect) (sg : Addressing) (pr : Profile),
    ∃ ws, walk 32 32 (dmapCell c v ms sg pr) = .ok ws ∧ ws.length = 65536) ∧
  (∀ (c : Config) (v : Vram) (pr : Profile), ∃ ws, walk 32 64 (ddualCell c v pr) = .ok ws ∧ ws.length = 131072) ∧
  (∀ (c : Config) (v : Vram) (n gw gh : Nat) (pr : Profile), min n (gw * gh) ≤ 512 →
    ∃ ws, walk gw gh (dtileCell c v n gw pr) = .ok ws ∧ ws.length = 64 * min n (gw * gh))

/-! ## The three commands (43_frame_rasterizer.md sections 2 to 5) -/

/-- R152 with the closed form of R153 (c): a `DMAP` that passes the check completes; every pixel of the 256×256 output area is
the colour of its tile's pixel, nothing else of the framebuffer changes, `DIMS` is 256 by 256, and the rest of the machine is
as before. -/
def Obligations.DmapPass : Prop :=
  ∀ (s : State) (v : Vram) (ms : MapSelect) (sg : Addressing) (pr : Profile),
    s.fault = none → s.vram = some v → (pr = .gray → s.cfg.hasGray = true) →
    ∃ t, exec (.dmap ms sg pr) s = .next t ∧
      (∀ px py : Nat, px < 256 → py < 256 → ∃ b lo hi,
        memRead v (((if ms = .map0 then 0x1800 else 0x1C00) + (py / 8) * 32 + px / 8 : Nat) : Int) = .ok b ∧
        memRead v (resolve s.cfg sg b + 2 * (py % 8 : Nat)) = .ok lo ∧
        memRead v (resolve s.cfg sg b + 2 * (py % 8 : Nat) + 1) = .ok hi ∧
        fbWord t.fb (py * 256 + px) = some (color s.cfg pr (pix lo hi (mod8 px)))) ∧
      (∀ i, 65536 ≤ i → fbWord t.fb i = fbWord s.fb i) ∧
      t.outW.toNat = 256 ∧ t.outH.toNat = 256 ∧
      t.fault = s.fault ∧ t.vram = s.vram ∧ t.cfg = s.cfg ∧ t.pending = s.pending ∧ t.reply = s.reply

/-- R155: a `DDUAL` that passes the check completes; map rows 0..31 are decoded unsigned in the RGBA profile and rows 32..63
signed in the profile of the command, every row `y` of the region at tile row `y`; the rest of the machine is as before. Where
rows 32..63 are read from and drawn is the spec's own choice (D12, 93_implementation_defined.md U22; log 10). -/
def Obligations.DdualPass : Prop :=
  ∀ (s : State) (v : Vram) (pr : Profile),
    s.fault = none → s.vram = some v → (pr = .gray → s.cfg.hasGray = true) →
    ∃ t, exec (.ddual pr) s = .next t ∧
      (∀ px py : Nat, px < 256 → py < 512 → ∃ b lo hi,
        memRead v ((0x1800 + (py / 8) * 32 + px / 8 : Nat) : Int) = .ok b ∧
        (let off := if py / 8 ≤ 31 then resUnsigned b else resSigned s.cfg b
         let profile := if py / 8 ≤ 31 then Profile.rgba else pr
         memRead v (off + 2 * (py % 8 : Nat)) = .ok lo ∧ memRead v (off + 2 * (py % 8 : Nat) + 1) = .ok hi ∧
         fbWord t.fb (py * 256 + px) = some (color s.cfg profile (pix lo hi (mod8 px))))) ∧
      (∀ i, 131072 ≤ i → fbWord t.fb i = fbWord s.fb i) ∧
      t.outW.toNat = 256 ∧ t.outH.toNat = 512 ∧
      t.fault = s.fault ∧ t.vram = s.vram ∧ t.cfg = s.cfg ∧ t.pending = s.pending ∧ t.reply = s.reply

/-- R158 with the closed form of R160: a `DTILE` with legal fields that stays inside VRAM completes; the pixel (px, py) of grid
position `id` is the sentinel when `id` is not below `n` and the colour of tile `id`'s pixel otherwise; the rest of the
machine is as before. -/
def Obligations.DtilePass : Prop :=
  ∀ (s : State) (v : Vram) (n : BitVec 11) (gw : BitVec 6) (gh : BitVec 7) (pr : Profile),
    s.fault = none → s.vram = some v → (pr = .gray → s.cfg.hasGray = true) →
    1 ≤ gw.toNat → gw.toNat ≤ 32 → 1 ≤ gh.toNat → gh.toNat ≤ 64 → n.toNat ≤ 1024 →
    min n.toNat (gw.toNat * gh.toNat) ≤ 512 →
    ∃ t, exec (.dtile n gw gh pr) s = .next t ∧
      (∀ px py : Nat, px < 8 * gw.toNat → py < 8 * gh.toNat →
        let id := (py / 8) * gw.toNat + px / 8
        (n.toNat ≤ id → fbWord t.fb (py * (8 * gw.toNat) + px) = some s.cfg.sentinel) ∧
        (id < n.toNat → ∃ lo hi,
          memRead v ((16 * id + 2 * (py % 8) : Nat) : Int) = .ok lo ∧
          memRead v ((16 * id + 2 * (py % 8) + 1 : Nat) : Int) = .ok hi ∧
          fbWord t.fb (py * (8 * gw.toNat) + px) = some (color s.cfg pr (pix lo hi (mod8 px))))) ∧
      (∀ i, 8 * gw.toNat * (8 * gh.toNat) ≤ i → fbWord t.fb i = fbWord s.fb i) ∧
      t.outW.toNat = 8 * gw.toNat ∧ t.outH.toNat = 8 * gh.toNat ∧
      t.fault = s.fault ∧ t.vram = s.vram ∧ t.cfg = s.cfg ∧ t.pending = s.pending ∧ t.reply = s.reply

/-- R156, derived there from R152 and R155 and so resting on D12 (log 10): `DDUAL(pr)` is two `DMAP` results stacked, for any
three states with the same VRAM and configuration. -/
def Obligations.DdualIsTwoDmapsStacked : Prop :=
  ∀ (s s₁ s₂ : State) (v : Vram) (pr : Profile),
    s.vram = some v → s₁.vram = some v → s₂.vram = some v → s₁.cfg = s.cfg → s₂.cfg = s.cfg →
    s.fault = none → s₁.fault = none → s₂.fault = none → (pr = .gray → s.cfg.hasGray = true) →
    ∃ t t₁ t₂, exec (.ddual pr) s = .next t ∧ exec (.dmap .map0 .unsigned .rgba) s₁ = .next t₁ ∧
      exec (.dmap .map1 .signed pr) s₂ = .next t₂ ∧
      ∀ i, i < 65536 → fbWord t.fb i = fbWord t₁.fb i ∧ fbWord t.fb (65536 + i) = fbWord t₂.fb i

/-- R153 (a) and (b): after a `DMAP` no word of the output area shows the sentinel, which every configuration keeps distinct
(R142); and a buffer of zeros decoded unsigned shows `PAL[0]` everywhere. -/
def Obligations.DmapLeavesNoSentinel : Prop :=
  ∀ (s : State) (v : Vram) (ms : MapSelect) (sg : Addressing) (pr : Profile),
    s.fault = none → s.vram = some v → (pr = .gray → s.cfg.hasGray = true) →
    ∃ t, exec (.dmap ms sg pr) s = .next t ∧
      (∀ i, i < 65536 → ∃ w, fbWord t.fb i = some w ∧ w ≠ s.cfg.sentinel) ∧
      ((∀ a : Int, 0 ≤ a → a ≤ 8191 → memRead v a = .ok 0x00#8) → sg = .unsigned → pr = .rgba →
        ∀ i, i < 65536 → fbWord t.fb i = some (s.cfg.pal.get 0))

/-- R159 (a), (c), (d), (f): `DTILE` with `n` = 0 leaves the sentinel everywhere; with `n` ≥ `gw*gh` it leaves none, and
the tiles past the grid make no difference; 512 tiles on 32 × 16 run. -/
def Obligations.DtileCornerCases : Prop :=
  (∀ (s : State) (v : Vram) (gw : BitVec 6) (gh : BitVec 7), s.fault = none → s.vram = some v →
    1 ≤ gw.toNat → gw.toNat ≤ 32 → 1 ≤ gh.toNat → gh.toNat ≤ 64 →
    ∃ t, exec (Instr.dfill gw gh) s = .next t ∧ t.fault = none ∧
      ∀ i, i < 8 * gw.toNat * (8 * gh.toNat) → fbWord t.fb i = some s.cfg.sentinel) ∧
  (∀ (s : State) (v : Vram) (n n' : BitVec 11) (gw : BitVec 6) (gh : BitVec 7), s.fault = none → s.vram = some v →
    1 ≤ gw.toNat → gw.toNat ≤ 32 → 1 ≤ gh.toNat → gh.toNat ≤ 64 → n.toNat ≤ 1024 → n'.toNat ≤ 1024 →
    gw.toNat * gh.toNat ≤ 512 → gw.toNat * gh.toNat ≤ n.toNat → gw.toNat * gh.toNat ≤ n'.toNat →
    exec (.dtile n gw gh .rgba) s = exec (.dtile n' gw gh .rgba) s ∧
    ∃ t, exec (.dtile n gw gh .rgba) s = .next t ∧
      ∀ i, i < 8 * gw.toNat * (8 * gh.toNat) → ∃ w, fbWord t.fb i = some w ∧ w ≠ s.cfg.sentinel) ∧
  (∀ (s : State) (v : Vram), s.fault = none → s.vram = some v →
    ∃ t, exec (.dtile 512#11 32#6 16#7 .rgba) s = .next t ∧ t.fault = none ∧ t.dims = 0x00800100#32)

/-- R92, R159 (h), 90_conflicts.md C2: the display-grid view always faults on an 8192-byte buffer, with the record of R176 and
nothing else changed. That the fault is a next state, where R191 asks for a fault outcome, is the model's choice (log 5). -/
def Obligations.DisplayGridViewFaults : Prop :=
  ∀ (s : State) (v : Vram), s.fault = none → s.vram = some v →
    exec Instr.dgrid s = .next { s with fault := some ⟨.vramOutOfRange, 0x32082000#32⟩ }

/-- R151: two equal commands with equal VRAM produce equal output areas, whatever the framebuffers held before. That a command
which takes a fault of R175 ends in a next state too, with the same fault in both, is the model's choice (log 5; R191 asks for a
fault outcome). -/
def Obligations.EqualCommandsEqualOutput : Prop :=
  ∀ (i : Instr) (s s' : State), s.vram = s'.vram → s.cfg = s'.cfg → s.fault = none → s'.fault = none →
    ∃ t t', exec i s = .next t ∧ exec i s' = .next t' ∧ t.fault = t'.fault ∧
      (t.fault = none →
        t.outW = t'.outW ∧ t.outH = t'.outH ∧
        ∀ k, k < t.outW.toNat * t.outH.toNat → fbWord t.fb k = fbWord t'.fb k ∧ (fbWord t.fb k).isSome = true)

/-! ## What a command leaves alone, and what it can do -/

/-- The frame of the three commands (R147, R151, R176): no command writes VRAM, the configuration or the host's side, or a
framebuffer word above its output area; one that records a fault or is ignored changes nothing else. That a recorded fault stands in a next state
is the model's choice (log 5). -/
def Obligations.CommandFrame : Prop :=
  ∀ (i : Instr) (s t : State), exec i s = .next t →
    t.vram = s.vram ∧ t.cfg = s.cfg ∧ t.pending = s.pending ∧ t.reply = s.reply ∧
    (∀ k, (outputSize i).1 * (outputSize i).2 ≤ k → fbWord t.fb k = fbWord s.fb k) ∧
    (t.fault ≠ none → t.fb = s.fb ∧ t.outW = s.outW ∧ t.outH = s.outH)

/-- R177: a command either faults and changes nothing but the fault record, or is ignored after a fault, or completes and raises
nothing. That a faulting command answers a next state is the model's choice (log 5). -/
def Obligations.FaultsArePrecise : Prop :=
  ∀ (i : Instr) (s t : State), exec i s = .next t →
    (s.fault ≠ none ∧ t = s) ∨
    (s.fault = none ∧ ∃ cause, t = { s with fault := some ⟨cause, encode i⟩ }) ∨
    (s.fault = none ∧ t.fault = none ∧ t.outW.toNat = (outputSize i).1 ∧ t.outH.toNat = (outputSize i).2)

/-- R161, R172, R183: every pass terminates and no pass fails half way, so every command that passes the check ends in a next
state. That a command which faults (R176) ends in one too, where R191 asks for a fault outcome, is the model's choice (log 5);
one that is ignored after a fault (R178) is a step with no effect. -/
def Obligations.EveryCommandTerminates : Prop := ∀ (i : Instr) (s : State), ∃ t, exec i s = .next t

/-- R178 to R182 for the commands: ignored after a fault; else an illegal field, an unloaded VRAM, tiles beyond VRAM, in this
order, each recorded with the command's word, as a next state (log 5, log 8). -/
def Obligations.CommandTraps : Prop :=
  ∀ (i : Instr) (s : State),
    (s.fault ≠ none → exec i s = .next s) ∧
    (s.fault = none → ¬ i.WellFormed s.cfg → exec i s = .next { s with fault := some ⟨.illegalCommand, encode i⟩ }) ∧
    (s.fault = none → i.WellFormed s.cfg → s.vram = none →
      exec i s = .next { s with fault := some ⟨.vramNotLoaded, encode i⟩ }) ∧
    (∀ v n gw gh pr, i = .dtile n gw gh pr → s.fault = none → i.WellFormed s.cfg → s.vram = some v →
      512 < min n.toNat (gw.toNat * gh.toNat) → exec i s = .next { s with fault := some ⟨.vramOutOfRange, encode i⟩ })

/-! ## Transactions (60_exceptions.md, 70_reset_and_hazards.md) -/

/-- Bookkeeping of a step, the model's choice (log 1, log 2): a step makes the host's next transaction, with the host's list
moved on and nothing returned yet; an `ISSUE` of a word with the shape of a command is then `exec` of that command; and with no
transaction to make a step changes nothing. -/
def Obligations.StepRunsTheIssuedCommand : Prop :=
  (∀ (s : State) (w : Word) (rest : List Transaction) (i : Instr), s.pending = .issue w :: rest → decode w = .ok i →
    step s = exec i { s with pending := rest, reply := none }) ∧
  (∀ (s : State) (t : Transaction) (rest : List Transaction), s.pending = t :: rest →
    step s = perform t { s with pending := rest, reply := none }) ∧
  (∀ s : State, s.pending = [] → step s = .next s) ∧
  (∀ (s : State) (w : Nat) (i : Instr), decodeTableWord 32 w = some i →
    step (s.withFetchWord 32 w) = exec i { s with reply := none })

/-- R182: `ISSUE(w)` runs these tests in this order and stops at the first that fails, with the decode of R89; and at most one
fault is recorded between two resets. That a raised fault is a next state, where R191 asks for a fault outcome, is the model's
choice (log 5), and so are the host's list and the reply that `s₀` updates (log 1, log 2). -/
def Obligations.IssueRunsTheCheckInOrder : Prop :=
  (∀ (s : State) (w : Word) (rest : List Transaction), s.pending = .issue w :: rest →
    let s₀ : State := { s with pending := rest, reply := none }
    (s.fault ≠ none → step s = .next s₀) ∧
    (s.fault = none → decodeCommand s.cfg w = none →
      step s = .next { s₀ with fault := some ⟨.illegalCommand, w⟩ }) ∧
    (∀ c, s.fault = none → decodeCommand s.cfg w = some c → s.vram = none →
      step s = .next { s₀ with fault := some ⟨.vramNotLoaded, w⟩ }) ∧
    (∀ n gw gh pr v, s.fault = none → decodeCommand s.cfg w = some (.dtile n gw gh pr) → s.vram = some v →
      min n.toNat (gw.toNat * gh.toNat) > 512 →
      step s = .next { s₀ with fault := some ⟨.vramOutOfRange, w⟩ }) ∧
    (∀ c v, s.fault = none → decodeCommand s.cfg w = some c → s.vram = some v →
      (∀ n gw gh pr, c = .dtile n gw gh pr → min n.toNat (gw.toNat * gh.toNat) ≤ 512) →
      ∃ t, step s = .next t ∧ exec c s₀ = .next t ∧ t.fault = none ∧
        t.outW.toNat = (outputSize c).1 ∧ t.outH.toNat = (outputSize c).2)) ∧
  (∀ (s t : State) (f : FaultRecord), s.fault = some f → step s = .next t →
    t.fault = some f ∨ ∃ rest, s.pending = .reset :: rest)

/-- R178: while a fault is recorded every `ISSUE` does nothing, the first fault stays the one recorded, and only `RESET` clears
it. -/
def Obligations.FaultIsSticky : Prop :=
  ∀ (s : State) (f : FaultRecord), s.fault = some f →
    (∀ (w : Word) (rest : List Transaction), s.pending = .issue w :: rest →
      step s = .next { s with pending := rest, reply := none }) ∧
    (∀ t, step s = .next t → t.fault = some f ∨ (t.fault = none ∧ ∃ rest, s.pending = .reset :: rest)) ∧
    (∀ rest, s.pending = .reset :: rest → ∃ t, step s = .next t ∧ t.fault = none)

/-- R195 with the table of R39: `RESET`, from every state, in one step, leaves the block so and the configuration untouched, and
it is the only way to clear a fault; the host goes on with its next transaction. -/
def Obligations.ResetTransaction : Prop :=
  (∀ (s : State) (rest : List Transaction), s.pending = .reset :: rest →
    ∃ t, step s = .next t ∧ t.vram = none ∧ (∀ i, fbWord t.fb i = none) ∧ t.outW = 0#10 ∧ t.outH = 0#10 ∧
      t.dims = 0#32 ∧ t.fault = none ∧ t.causeField = 0#4 ∧ t.fcmd = 0#32 ∧ t.status.getLsbD 0 = false ∧
      t.status.getLsbD 1 = false ∧ t.status.getLsbD 2 = s.cfg.hasGray ∧ t.cfg = s.cfg ∧ t.pending = rest) ∧
  (∀ s t : State, s.fault ≠ none → step s = .next t → t.fault = none → ∃ rest, s.pending = .reset :: rest)

/-- R39 of the state every run starts from (R196): the block after `RESET`, on the configuration of the block at hand. That the
host has no transaction waiting and nothing has been returned is the model's choice (log 1, log 2). -/
def Obligations.ResetState : Prop :=
  State.reset.vram = none ∧ (∀ i, fbWord State.reset.fb i = none) ∧ State.reset.outW = 0#10 ∧ State.reset.outH = 0#10 ∧
  State.reset.fault = none ∧ State.reset.dims = 0#32 ∧ State.reset.fcmd = 0#32 ∧
  State.reset.status = (if State.reset.cfg.hasGray then 0x00000004#32 else 0x00000000#32) ∧
  State.reset.cfg = Config.hw ∧ State.reset.pending = [] ∧ State.reset.reply = none

/-- R171: `LOAD_VRAM` of 8192 bytes replaces every byte in one step and sets `VRAM_LOADED`, at any time, and never changes the
framebuffer, `DIMS` or the fault; a buffer of another length is no transaction (U12), and that it is refused
by name is the model's choice (log 7). -/
def Obligations.LoadVramReplacesEveryByte : Prop :=
  ∀ (s : State) (buf : List Byte) (rest : List Transaction), s.pending = .loadVram buf :: rest →
    (buf.length = 8192 → ∃ t v, step s = .next t ∧ t.vram = some v ∧
      (∀ (a : Nat) (h : a < buf.length), memRead v (a : Int) = .ok buf[a]) ∧
      t.fb = s.fb ∧ t.outW = s.outW ∧ t.outH = s.outH ∧ t.fault = s.fault ∧ t.cfg = s.cfg ∧ t.pending = rest) ∧
    (buf.length ≠ 8192 → step s = .refused (.loadVramWrongLength buf.length))

/-- R173: `READ_REG` of 1, 2 or 3 returns the register and changes nothing of the block; any other number is no access of
the host (R35, U11), and that it is refused by name is the model's choice (log 7). -/
def Obligations.ReadRegReturnsTheRegister : Prop :=
  ∀ (s : State) (r : Nat) (rest : List Transaction), s.pending = .readReg r :: rest →
    (r = 1 → step s = .next { s with pending := rest, reply := some s.status }) ∧
    (r = 2 → step s = .next { s with pending := rest, reply := some s.dims }) ∧
    (r = 3 → step s = .next { s with pending := rest, reply := some s.fcmd }) ∧
    (r = 0 ∨ 3 < r → step s = .refused (.readRegUndefined r))

/-- R174: `READ_FB` returns the value of a word that holds one and changes nothing of the block; a read of a word that holds
none, or outside the framebuffer, is to be refused (93_implementation_defined.md U8, U10), and the names are the model's choice
(log 7). -/
def Obligations.ReadFbReturnsTheWord : Prop :=
  ∀ (s : State) (i : Nat) (rest : List Transaction), s.pending = .readFb i :: rest →
    (∀ w, i ≤ 131071 → fbWord s.fb i = some w → step s = .next { s with pending := rest, reply := some w }) ∧
    (i ≤ 131071 → fbWord s.fb i = none → step s = .refused (.readFbNoValue i)) ∧
    (131071 < i → step s = .refused (.readFbOutOfRange i))

/-- R203: after any completed pass every word of its output area can be read. -/
def Obligations.OutputAreaIsReadable : Prop :=
  ∀ (s : State) (i : Nat) (rest : List Transaction), s.Inv → s.pending = .readFb i :: rest →
    i < s.outW.toNat * s.outH.toNat →
    ∃ w, fbWord s.fb i = some w ∧ step s = .next { s with pending := rest, reply := some w }

/-! ## Registers (10_state.md section 4) -/

/-- R31: the fields of `STATUS`, and its value after reset. -/
def Obligations.StatusFields : Prop :=
  (∀ s : State,
    s.status.getLsbD 0 = s.fault.isSome ∧ s.status.getLsbD 1 = s.vram.isSome ∧ s.status.getLsbD 2 = s.cfg.hasGray ∧
    s.status.getLsbD 3 = false ∧ s.status.extractLsb' 8 24 = 0#24 ∧
    (s.fault = none → s.status.extractLsb' 4 4 = 0#4) ∧
    (∀ f, s.fault = some f → s.status.extractLsb' 4 4 =
      match f.cause with | .illegalCommand => 1#4 | .vramNotLoaded => 2#4 | .vramOutOfRange => 3#4)) ∧
  (∀ (s : State) (rest : List Transaction), s.pending = .reset :: rest →
    ∃ t, step s = .next t ∧
      (s.cfg.hasGray = false → t.status = 0x00000000#32) ∧ (s.cfg.hasGray = true → t.status = 0x00000004#32))

/-- R32, R33: the fields of `DIMS`; `FCMD` is the recorded command word, 0 when there is none. -/
def Obligations.DimsAndFcmdFields : Prop :=
  ∀ s : State,
    s.dims.extractLsb' 0 10 = s.outW ∧ s.dims.extractLsb' 10 6 = 0#6 ∧ s.dims.extractLsb' 16 10 = s.outH ∧
    s.dims.extractLsb' 26 6 = 0#6 ∧ (s.fault = none → s.fcmd = 0#32) ∧ (∀ f, s.fault = some f → s.fcmd = f.cmd)

/-! ## Invariants -/

/-- The memories stay canonical and inside their ranges, `DIMS` stays legal and its area readable, over every step from every
state (R25, R27, R32, R203). -/
def Obligations.StepKeepsMemoryAndDims : Prop := ∀ s t : State, s.Inv → step s = .next t → t.Inv

/-- The fault record stays true of its word over every step (R175, R178), a raised fault being a next state (the model's choice,
log 5). -/
def Obligations.StepKeepsFaultRecordTrue : Prop :=
  ∀ s t : State, s.FaultRecordTrue → step s = .next t → t.FaultRecordTrue

/-- Both invariants hold after reset. -/
def Obligations.ResetMeetsTheInvariants : Prop := State.reset.Inv ∧ State.reset.FaultRecordTrue

/-- R137, R197: no transaction and no command changes the configuration. -/
def Obligations.ConfigurationNeverChanges : Prop := ∀ s t : State, step s = .next t → t.cfg = s.cfg

/-- R50, R51: VRAM is changed by `LOAD_VRAM` and `RESET` only. -/
def Obligations.OnlyTheHostChangesVram : Prop :=
  ∀ s t : State, step s = .next t → t.vram ≠ s.vram →
    ∃ rest, s.pending = .reset :: rest ∨ ∃ buf, s.pending = .loadVram buf :: rest

/-- R131, R177, R183: no step of the machine, from any state, makes an access outside VRAM or the framebuffer. -/
def Obligations.NoAccessOutsideTheMemories : Prop := ∀ s : State, Safe (step s)

/-! ## The encoding (30_encoding.md) -/

/-- R82, R84: decoding the encoding of a command gives it back, with every operand at every value of its field. -/
def Obligations.DecodeOfEncode : Prop := ∀ i : Instr, decode (encode i) = .ok i

/-- R80, R82: a word that has the shape of a command is the encoding of that command, bit for bit. -/
def Obligations.EncodeOfDecode : Prop := ∀ (w : Word) (i : Instr), decode w = .ok i → encode i = w

/-- R86: a word has the shape of a command exactly when its masked bits match the command's row of the opcode map. -/
def Obligations.ShapeIsMaskAndMatch : Prop :=
  ∀ w : Word,
    (w &&& 0xFFFFFFF8#32 = 0x10000000#32 ↔ ∃ ms sg pr, decode w = .ok (.dmap ms sg pr)) ∧
    (w &&& 0xFFFFFFFB#32 = 0x20000000#32 ↔ ∃ pr, decode w = .ok (.ddual pr)) ∧
    (w &&& 0xF8000003#32 = 0x30000000#32 ↔ ∃ n gw gh pr, decode w = .ok (.dtile n gw gh pr))

/-- R87, R89: the decode of R89 is the shape of R86 with the legality of R87. -/
def Obligations.DecodeCommandIsShapeAndLegality : Prop :=
  ∀ (c : Config) (w : Word) (i : Instr), decodeCommand c w = some i ↔ decode w = .ok i ∧ i.WellFormed c

/-- R88: the reserved opcodes and the reserved bits are illegal on every configuration, 0x00000000 and 0xFFFFFFFF among them. -/
def Obligations.ReservedEncodingsAreIllegal : Prop :=
  ∀ (c : Config) (w : Word),
    (w.extractLsb' 28 4 = 0x0#4 ∨ 0x4 ≤ (w.extractLsb' 28 4).toNat → decodeCommand c w = none) ∧
    (w.extractLsb' 28 4 = 0x1#4 → w.extractLsb' 3 25 ≠ 0#25 → decodeCommand c w = none) ∧
    (w.extractLsb' 28 4 = 0x2#4 → w.extractLsb' 3 25 ≠ 0#25 ∨ w.extractLsb' 0 2 ≠ 0#2 → decodeCommand c w = none) ∧
    (w.extractLsb' 28 4 = 0x3#4 → w.getLsbD 27 = true ∨ w.extractLsb' 0 2 ≠ 0#2 → decodeCommand c w = none) ∧
    decodeCommand c 0x00000000#32 = none ∧ decodeCommand c 0xFFFFFFFF#32 = none

/-- R93: the words of the spec's own table, all of them, are those of the commands it lists, both ways. -/
def Obligations.ExampleWordsDecode : Prop :=
  ∀ p ∈ ([(0x10000000#32, .dmap .map0 .unsigned .rgba), (0x10000001#32, .dmap .map1 .unsigned .rgba),
      (0x10000002#32, .dmap .map0 .signed .rgba), (0x10000003#32, .dmap .map1 .signed .rgba),
      (0x10000004#32, .dmap .map0 .unsigned .gray), (0x10000007#32, .dmap .map1 .signed .gray),
      (0x20000000#32, .ddual .rgba), (0x20000004#32, .ddual .gray), (0x30104008#32, .dtile 1#11 1#6 1#7 .rgba),
      (0x30208018#32, .dtile 3#11 2#6 2#7 .rgba), (0x3020801C#32, .dtile 3#11 2#6 2#7 .gray),
      (0x31840C00#32, Instr.dchars 16#6 24#7), (0x30C80C00#32, Instr.dchars 32#6 12#7),
      (0x32080C00#32, .dtile 384#11 32#6 32#7 .rgba), (0x31081000#32, .dtile 512#11 32#6 16#7 .rgba),
      (0x32082000#32, Instr.dgrid), (0x34082000#32, .dtile 1024#11 32#6 64#7 .rgba),
      (0x30410000#32, Instr.dfill 4#6 4#7)] : List (Word × Instr)),
    decode p.1 = .ok p.2 ∧ encode p.2 = p.1

/-! ## The configuration (00_scope.md R8, R9; 42_palette_lut.md R142) -/

/-- R142: on every configuration the sentinel is a fifth colour, which the prefill writes and no colour of a profile the block
has equals; its default is full-intensity magenta with full alpha. -/
def Obligations.SentinelIsAFifthColour : Prop :=
  (∀ c : Config, c.SentinelDistinct ∧
    (∀ (pr : Profile) (k : ColorIndex), (pr = .gray → c.hasGray = true) → color c pr k ≠ c.sentinel) ∧
    (∀ (outW outH : Nat), (prefill c outW outH).length = outW * outH ∧ ∀ w ∈ prefill c outW outH, w.2 = c.sentinel)) ∧
  (∀ (pal : Vector Word 4) (hasGray : Bool) (shade : Vector Byte 4),
    ({ pal, hasGray, shade } : Params).sentinel = 0xFF00FFFF#32) ∧
  channelR 0xFF00FFFF#32 = 0xFF#8 ∧ channelG 0xFF00FFFF#32 = 0x00#8 ∧ channelB 0xFF00FFFF#32 = 0xFF#8 ∧
  channelA 0xFF00FFFF#32 = 0xFF#8

/-- R8, R9, U4: a record of parameters is a configuration exactly when its `SIGNED_BASE` is 0x1000 and its sentinel differs from
every colour its profiles produce; any other record is refused. How it is refused is the model's choice (log 3), and so is where
the base is held (log 6). -/
def Obligations.ConfigurationsMeetTheirConstraints : Prop :=
  ∀ p : Params,
    ((∃ c : Config, c.toParams = p) ↔
      p.signedBase = 0x1000 ∧ (∀ k, p.pal.get k ≠ p.sentinel) ∧
        (p.hasGray = true → ∀ k, grayWord (p.shade.get k) ≠ p.sentinel)) ∧
    (∀ c : Config, Config.ofParams p = some c ↔ c.toParams = p) ∧
    (Config.ofParams p = none ↔
      p.signedBase ≠ 0x1000 ∨ (∃ k, p.pal.get k = p.sentinel) ∨
        (p.hasGray = true ∧ ∃ k, grayWord (p.shade.get k) = p.sentinel))

/-! ## Outcomes of a step and final states (60_exceptions.md R191, 70_reset_and_hazards.md R209) -/

/-- R191: a fault of R175 is a fault outcome of the step, with the record and the state of R176; an `ISSUE` after a fault is a
real step with no effect; a read with no answer is no move of the host; a fault outcome comes from an `ISSUE` of the recorded word
and changes nothing else of the block. That the fault outcome is told apart from the host's `next` here, and not in `step`, is the
model's choice (log 5), and so are the host's list and the reply (log 1, log 2) and the names of the refusals (log 7). -/
def Obligations.FaultIsAFaultOutcome : Prop :=
  (∀ (s : State) (w : Word) (rest : List Transaction), s.pending = .issue w :: rest →
    let s₀ : State := { s with pending := rest, reply := none }
    (s.fault ≠ none → stepOutcome s = .effect s₀) ∧
    (s.fault = none → decodeCommand s.cfg w = none →
      stepOutcome s = .fault ⟨.illegalCommand, w⟩ { s₀ with fault := some ⟨.illegalCommand, w⟩ }) ∧
    (∀ c, s.fault = none → decodeCommand s.cfg w = some c → s.vram = none →
      stepOutcome s = .fault ⟨.vramNotLoaded, w⟩ { s₀ with fault := some ⟨.vramNotLoaded, w⟩ }) ∧
    (∀ n gw gh pr v, s.fault = none → decodeCommand s.cfg w = some (.dtile n gw gh pr) → s.vram = some v →
      min n.toNat (gw.toNat * gh.toNat) > 512 →
      stepOutcome s = .fault ⟨.vramOutOfRange, w⟩ { s₀ with fault := some ⟨.vramOutOfRange, w⟩ }) ∧
    (∀ c v, s.fault = none → decodeCommand s.cfg w = some c → s.vram = some v →
      (∀ n gw gh pr, c = .dtile n gw gh pr → min n.toNat (gw.toNat * gh.toNat) ≤ 512) →
      ∃ t, stepOutcome s = .effect t ∧ t.fault = none)) ∧
  (∀ (s t : State) (f : FaultRecord), stepOutcome s = .fault f t →
    ∃ rest, s.pending = .issue f.cmd :: rest ∧ t = { s with pending := rest, reply := none, fault := some f }) ∧
  (∀ (s : State) (r : Nat) (rest : List Transaction), s.pending = .readReg r :: rest → r = 0 ∨ 3 < r →
    stepOutcome s = .noMove (.readRegUndefined r)) ∧
  (∀ (s : State) (i : Nat) (rest : List Transaction), s.pending = .readFb i :: rest →
    (i ≤ 131071 → fbWord s.fb i = none → stepOutcome s = .noMove (.readFbNoValue i)) ∧
    (131071 < i → stepOutcome s = .noMove (.readFbOutOfRange i))) ∧
  ∀ (s : State) (e : Fault), stepOutcome s ≠ .stop e

/-- R191 with R185 and R209: the faulted state is never final. A run that faults has no final state unless a `RESET` follows,
which always leads to one; a final state has no fault, no transaction left and is kept by every further step; and a run that ends
with an `ISSUE` whose pass completes has one. What final means of the host's list is the model's choice (log 1, log 5). -/
def Obligations.FaultedStateIsNeverFinal : Prop :=
  (∀ (s : State) (f : FaultRecord), s.fault = some f → s.final = false ∧
    (Transaction.reset ∉ s.pending → s.finalState = none)) ∧
  (∀ (s t : State) (f : FaultRecord), stepOutcome s = .fault f t → t.final = false ∧
    (Transaction.reset ∉ t.pending → s.finalState = none)) ∧
  (∀ s t : State, s.finalState = some t → t.fault = none ∧ t.pending = [] ∧ step t = .next t) ∧
  (∀ s : State, s.pending = [.reset] → ∃ t, s.finalState = some t ∧ step s = .next t) ∧
  (∀ (s : State) (w : Word) (c : Instr) (v : Vram), s.pending = [.issue w] → s.fault = none →
    decodeCommand s.cfg w = some c → s.vram = some v →
    (∀ n gw gh pr, c = .dtile n gw gh pr → min n.toNat (gw.toNat * gh.toNat) ≤ 512) →
    ∃ t, s.finalState = some t ∧ step s = .next t)
end

