-- ==== Sys2Proof/Laws/Config.lean ====
section
/-! SUPPORT. What holds of every configuration, from the constraints it carries. -/

namespace Sys2Proof

/-- `SIGNED_BASE` is 0x1000 on every block (R8). -/
theorem Config.signedBase_eq (c : Config) : c.signedBase = 0x1000 := by
  have h := c.valid
  simp only [Params.valid, Params.baseValid, Bool.and_eq_true, beq_iff_eq] at h
  exact h.1

/-- The sentinel test, colour by colour (R142). -/
theorem Params.sentinelValid_iff (p : Params) :
    p.sentinelValid = true ↔ (∀ k, p.pal.get k ≠ p.sentinel) ∧
      (p.hasGray = true → ∀ k, Machine.grayWord (p.shade.get k) ≠ p.sentinel) := by
  cases h : p.hasGray <;> simp [Params.sentinelValid, h]

/-- The configuration of valid parameters carries exactly these parameters. -/
theorem Config.ofParams_eq_some {p : Params} {c : Config} : Config.ofParams p = some c ↔ c.toParams = p := by
  unfold Config.ofParams
  constructor
  · intro h
    split_ifs at h
    cases h
    rfl
  · rintro rfl
    rw [dif_pos c.valid]

end Sys2Proof
end

