-- ==== Sys2Proof/Laws/State.lean ====
section
/-! SUPPORT. What each named update of the state does to each field: one lemma per field per update. -/

namespace Sys2Proof.Machine

/-! ## `Block.reset` -/

@[simp] theorem Block.reset_vram : Block.reset.vram = none := rfl
@[simp] theorem Block.reset_fb : Block.reset.fb = [] := rfl
@[simp] theorem Block.reset_outW : Block.reset.outW = 0#10 := rfl
@[simp] theorem Block.reset_outH : Block.reset.outH = 0#10 := rfl
@[simp] theorem Block.reset_fault : Block.reset.fault = none := rfl

/-! ## `State.raise` -/

@[simp] theorem State.raise_vram (s : State) (cause : Cause) (w : Word) : (s.raise cause w).vram = s.vram := rfl
@[simp] theorem State.raise_fb (s : State) (cause : Cause) (w : Word) : (s.raise cause w).fb = s.fb := rfl
@[simp] theorem State.raise_outW (s : State) (cause : Cause) (w : Word) : (s.raise cause w).outW = s.outW := rfl
@[simp] theorem State.raise_outH (s : State) (cause : Cause) (w : Word) : (s.raise cause w).outH = s.outH := rfl
@[simp] theorem State.raise_fault (s : State) (cause : Cause) (w : Word) : (s.raise cause w).fault = some ⟨cause, w⟩ := rfl
@[simp] theorem State.raise_cfg (s : State) (cause : Cause) (w : Word) : (s.raise cause w).cfg = s.cfg := rfl
@[simp] theorem State.raise_pending (s : State) (cause : Cause) (w : Word) : (s.raise cause w).pending = s.pending := rfl
@[simp] theorem State.raise_reply (s : State) (cause : Cause) (w : Word) : (s.raise cause w).reply = s.reply := rfl

/-! ## `State.completePass` -/

@[simp] theorem State.completePass_vram (s : State) (fb : Fb) (outW outH : Nat) : (s.completePass fb outW outH).vram = s.vram := rfl
@[simp] theorem State.completePass_fb (s : State) (fb : Fb) (outW outH : Nat) : (s.completePass fb outW outH).fb = fb := rfl
@[simp] theorem State.completePass_outW (s : State) (fb : Fb) (outW outH : Nat) : (s.completePass fb outW outH).outW = BitVec.ofNat 10 outW := rfl
@[simp] theorem State.completePass_outH (s : State) (fb : Fb) (outW outH : Nat) : (s.completePass fb outW outH).outH = BitVec.ofNat 10 outH := rfl
@[simp] theorem State.completePass_fault (s : State) (fb : Fb) (outW outH : Nat) : (s.completePass fb outW outH).fault = s.fault := rfl
@[simp] theorem State.completePass_cfg (s : State) (fb : Fb) (outW outH : Nat) : (s.completePass fb outW outH).cfg = s.cfg := rfl
@[simp] theorem State.completePass_pending (s : State) (fb : Fb) (outW outH : Nat) : (s.completePass fb outW outH).pending = s.pending := rfl
@[simp] theorem State.completePass_reply (s : State) (fb : Fb) (outW outH : Nat) : (s.completePass fb outW outH).reply = s.reply := rfl

/-! ## `State.loadBuffer` -/

@[simp] theorem State.loadBuffer_vram (s : State) (buf : List Byte) : (s.loadBuffer buf).vram = some (vramOfBytes 0 buf) := rfl
@[simp] theorem State.loadBuffer_fb (s : State) (buf : List Byte) : (s.loadBuffer buf).fb = s.fb := rfl
@[simp] theorem State.loadBuffer_outW (s : State) (buf : List Byte) : (s.loadBuffer buf).outW = s.outW := rfl
@[simp] theorem State.loadBuffer_outH (s : State) (buf : List Byte) : (s.loadBuffer buf).outH = s.outH := rfl
@[simp] theorem State.loadBuffer_fault (s : State) (buf : List Byte) : (s.loadBuffer buf).fault = s.fault := rfl
@[simp] theorem State.loadBuffer_cfg (s : State) (buf : List Byte) : (s.loadBuffer buf).cfg = s.cfg := rfl
@[simp] theorem State.loadBuffer_pending (s : State) (buf : List Byte) : (s.loadBuffer buf).pending = s.pending := rfl
@[simp] theorem State.loadBuffer_reply (s : State) (buf : List Byte) : (s.loadBuffer buf).reply = s.reply := rfl

/-! ## `State.resetBlock` -/

@[simp] theorem State.resetBlock_vram (s : State) : (s.resetBlock).vram = none := rfl
@[simp] theorem State.resetBlock_fb (s : State) : (s.resetBlock).fb = [] := rfl
@[simp] theorem State.resetBlock_outW (s : State) : (s.resetBlock).outW = 0#10 := rfl
@[simp] theorem State.resetBlock_outH (s : State) : (s.resetBlock).outH = 0#10 := rfl
@[simp] theorem State.resetBlock_fault (s : State) : (s.resetBlock).fault = none := rfl
@[simp] theorem State.resetBlock_cfg (s : State) : (s.resetBlock).cfg = s.cfg := rfl
@[simp] theorem State.resetBlock_pending (s : State) : (s.resetBlock).pending = s.pending := rfl
@[simp] theorem State.resetBlock_reply (s : State) : (s.resetBlock).reply = s.reply := rfl

/-! ## `State.answer` -/

@[simp] theorem State.answer_vram (s : State) (w : Word) : (s.answer w).vram = s.vram := rfl
@[simp] theorem State.answer_fb (s : State) (w : Word) : (s.answer w).fb = s.fb := rfl
@[simp] theorem State.answer_outW (s : State) (w : Word) : (s.answer w).outW = s.outW := rfl
@[simp] theorem State.answer_outH (s : State) (w : Word) : (s.answer w).outH = s.outH := rfl
@[simp] theorem State.answer_fault (s : State) (w : Word) : (s.answer w).fault = s.fault := rfl
@[simp] theorem State.answer_cfg (s : State) (w : Word) : (s.answer w).cfg = s.cfg := rfl
@[simp] theorem State.answer_pending (s : State) (w : Word) : (s.answer w).pending = s.pending := rfl
@[simp] theorem State.answer_reply (s : State) (w : Word) : (s.answer w).reply = some w := rfl

/-! ## `State.nextTransaction` -/

@[simp] theorem State.nextTransaction_vram (s : State) (rest : List Transaction) : (s.nextTransaction rest).vram = s.vram := rfl
@[simp] theorem State.nextTransaction_fb (s : State) (rest : List Transaction) : (s.nextTransaction rest).fb = s.fb := rfl
@[simp] theorem State.nextTransaction_outW (s : State) (rest : List Transaction) : (s.nextTransaction rest).outW = s.outW := rfl
@[simp] theorem State.nextTransaction_outH (s : State) (rest : List Transaction) : (s.nextTransaction rest).outH = s.outH := rfl
@[simp] theorem State.nextTransaction_fault (s : State) (rest : List Transaction) : (s.nextTransaction rest).fault = s.fault := rfl
@[simp] theorem State.nextTransaction_cfg (s : State) (rest : List Transaction) : (s.nextTransaction rest).cfg = s.cfg := rfl
@[simp] theorem State.nextTransaction_pending (s : State) (rest : List Transaction) : (s.nextTransaction rest).pending = rest := rfl
@[simp] theorem State.nextTransaction_reply (s : State) (rest : List Transaction) : (s.nextTransaction rest).reply = none := rfl

/-- The host's side only: the block is as before. -/
@[simp] theorem State.answer_toBlock (s : State) (w : Word) : (s.answer w).toBlock = s.toBlock := rfl

/-- The host's side only: the block is as before. -/
@[simp] theorem State.nextTransaction_toBlock (s : State) (rest : List Transaction) : (s.nextTransaction rest).toBlock = s.toBlock := rfl

/-- `RESET` leaves the block in the state of R39. -/
@[simp] theorem State.resetBlock_toBlock (s : State) : s.resetBlock.toBlock = Block.reset := rfl

end Sys2Proof.Machine
end

