-- ==== Sys2Proof/Laws/Memory.lean ====
section
/-! SUPPORT. The laws of the two memories: a read after a write, the canonical form and its uniqueness, what a load leaves, and
what a list of framebuffer writes leaves. -/

namespace Sys2Proof.Machine

/-! ## VRAM -/

/-- The byte a loaded VRAM holds at an offset inside it. -/
def vramByte (v : Vram) (a : Int) : Byte := (cellAt v a.toNat).getD unlistedByte

/-- `MemRead` inside VRAM gives the byte there (R53). -/
theorem memRead_ok {v : Vram} {a : Int} (h0 : 0 ≤ a) (h1 : a < 8192) : memRead v a = .ok (vramByte v a) := by
  obtain ⟨n, rfl⟩ := Int.eq_ofNat_of_zero_le h0
  exact if_pos (by simp only [Config.vramSize]; omega)

/-- `MemRead` answers a byte exactly inside VRAM (R53). -/
theorem memRead_isOk_iff (v : Vram) (a : Int) : (∃ b, memRead v a = .ok b) ↔ 0 ≤ a ∧ a < 8192 := by
  refine ⟨fun ⟨b, hb⟩ => ?_, fun h => ⟨_, memRead_ok h.1 h.2⟩⟩
  cases a with
  | negSucc k => cases hb
  | ofNat n =>
    rw [memRead] at hb
    split_ifs at hb with h
    simp only [Config.vramSize] at h
    exact ⟨Int.natCast_nonneg n, Int.ofNat_lt.2 h⟩

/-- A loaded buffer is in canonical form. -/
theorem vramOfBytes_within (buf : List Byte) (a : Nat) : cellsWithin a (a + buf.length) (vramOfBytes a buf) = true := by
  induction buf generalizing a with
  | nil => rfl
  | cons b rest ih =>
    have h := ih (a + 1)
    rw [show a + 1 + rest.length = a + (b :: rest).length by simp; omega] at h
    unfold vramOfBytes
    split_ifs
    · exact cellsWithin_mono (by omega) h
    · rw [cellsWithin, h]
      simp

/-- A loaded buffer lists no zero byte. -/
theorem vramOfBytes_nonzero (buf : List Byte) (a : Nat) : (vramOfBytes a buf).all (fun c => c.2 != 0#8) = true := by
  induction buf generalizing a with
  | nil => rfl
  | cons b rest ih =>
    unfold vramOfBytes
    split_ifs with h
    · exact ih _
    · simp only [List.all_cons, ih, Bool.and_true]
      simpa [unlistedByte] using h

/-- Loading a whole buffer leaves VRAM canonical. -/
theorem vramWf_loaded {buf : List Byte} (h : buf.length = 8192) : vramWf (vramOfBytes 0 buf) = true := by
  have := vramOfBytes_within buf 0
  rw [h] at this
  simp [vramWf, this, vramOfBytes_nonzero buf 0]

/-- Every offset of a loaded buffer holds the buffer's byte (R171). -/
theorem cellAt_vramOfBytes (buf : List Byte) (a k : Nat) (hk : k < buf.length) :
    (cellAt (vramOfBytes a buf) (a + k)).getD unlistedByte = buf[k] := by
  induction buf generalizing a k with
  | nil => simp at hk
  | cons b rest ih =>
    unfold vramOfBytes
    cases k with
    | zero =>
      split_ifs with h
      · rw [cellAt_below (vramOfBytes_within rest (a + 1)) (by omega)]
        simp [h]
      · simp [cellAt]
    | succ k =>
      have := ih (a + 1) k (by simpa using hk)
      rw [show a + 1 + k = a + (k + 1) by omega] at this
      split_ifs with h
      · simpa using this
      · rw [cellAt, if_neg (by omega)]
        simpa using this

/-! ## The canonical form of both memories (R25, R27): every memory operation keeps it -/

/-- After reset both memories are in canonical form. -/
theorem memory_wf_reset : Memory.wf State.reset.toBlock = true := rfl

/-- `RESET` leaves both memories in canonical form. -/
theorem memory_wf_resetBlock (s : State) : Memory.wf s.resetBlock.toBlock = true := rfl

/-- `LOAD_VRAM` of a whole buffer keeps the canonical form. -/
theorem memory_wf_loadBuffer {s : State} {buf : List Byte} (h : Memory.wf s.toBlock = true) (hl : buf.length = 8192) :
    Memory.wf (s.loadBuffer buf).toBlock = true := by
  simp only [Memory.wf, Bool.and_eq_true] at h ⊢
  exact ⟨by simpa [State.loadBuffer] using vramWf_loaded hl, h.2⟩

/-- One `MemWrite` that answers keeps the canonical form of the framebuffer. -/
theorem fbWf_memWrite {fb fb' : Fb} {w : Write} (h : fbWf fb = true) (he : memWrite fb w = .ok fb') : fbWf fb' = true := by
  unfold memWrite at he
  split_ifs at he with hw
  cases he
  exact cellsWithin_putCell h (Nat.zero_le _) hw

/-- A list of `MemWrite`s that answers keeps the canonical form of the framebuffer. -/
theorem fbWf_memWrites {fb fb' : Fb} {ws : List Write} (h : fbWf fb = true) (he : memWrites fb ws = .ok fb') :
    fbWf fb' = true := by
  induction ws generalizing fb with
  | nil => cases he; exact h
  | cons w ws ih =>
    rw [memWrites] at he
    cases hw : memWrite fb w with
    | error e => rw [hw] at he; cases he
    | ok fb₁ => rw [hw] at he; exact ih (fbWf_memWrite h hw) he

/-- A pass that completes keeps the canonical form. -/
theorem memory_wf_completePass {s : State} {fb : Fb} {outW outH : Nat} {ws : List Write} (h : Memory.wf s.toBlock = true)
    (he : memWrites s.fb ws = .ok fb) : Memory.wf (s.completePass fb outW outH).toBlock = true := by
  simp only [Memory.wf, Bool.and_eq_true] at h ⊢
  exact ⟨h.1, fbWf_memWrites h.2 he⟩

/-! ## Counted loops -/

/-- A loop whose every round answers gives the rounds' lists in order. -/
theorem collect_ok {α β : Type} {xs : List α} {body : α → Except Fault (List β)} {g : α → List β}
    (h : ∀ x ∈ xs, body x = .ok (g x)) : collect xs body = .ok (xs.flatMap g) := by
  induction xs with
  | nil => rfl
  | cons x xs ih => simp [collect, h x (by simp), ih fun y hy => h y (by simp [hy])]

end Sys2Proof.Machine
end

