-- ==== Sys2Proof/Laws/Raster.lean ====
section
/-! SUPPORT. What the shared operations of a pass do: the check phase, the resolver's ranges, one blit, one walk, one pass. The
lemma about a pass (`runPass_spec`) says once what every command leaves in the framebuffer. -/

namespace Sys2Proof.Machine

/-! ## The check phase (R182) -/

/-- The pass runs exactly when every test of the check phase is met. -/
theorem check_eq_run_iff (i : Instr) (s : State) (v : Vram) :
    check i s = .run v ↔ s.fault = none ∧ legal s.cfg i = true ∧ s.vram = some v ∧ directTiles i ≤ 512 := by
  unfold check
  cases hf : s.fault <;> cases hl : legal s.cfg i <;> cases hv : s.vram <;> simp
  split_ifs with h <;> simp [h]
  intro
  omega

/-- Everything a command can do: nothing, record a fault, or run its pass. -/
theorem underCheck_cases (i : Instr) (pass : Vram → State → Host.Outcome State Fault Refusal) (s : State) :
    (s.fault ≠ none ∧ underCheck i pass s = .next s) ∨
    (s.fault = none ∧ ∃ cause, underCheck i pass s = .next (s.raise cause (encode i))) ∨
    (∃ v, check i s = .run v ∧ underCheck i pass s = pass v s) := by
  unfold underCheck
  cases h : check i s with
  | ignore =>
    refine .inl ⟨fun hf => ?_, rfl⟩
    unfold check at h
    rw [hf] at h
    cases hl : legal s.cfg i <;> cases hv : s.vram <;> simp [hl, hv] at h
    split_ifs at h
  | raise cause =>
    refine .inr (.inl ⟨?_, cause, rfl⟩)
    cases hf : s.fault with
    | none => rfl
    | some f => simp [check, hf] at h
  | run v => exact .inr (.inr ⟨v, rfl, rfl⟩)

/-! ## The resolver (R124, R126, R131) -/

/-- `sext_8` stays inside -128..127 (R14). -/
theorem sext8_range (b : Byte) : -128 ≤ sext8 b ∧ sext8 b ≤ 127 := by
  have := b.isLt
  unfold sext8
  split_ifs <;> omega

/-- The signed form with the value every configuration holds `SIGNED_BASE` at (R8, R126). -/
theorem resSigned_eq (c : Config) (b : Byte) : resSigned c b = 0x1000 + sext8 b * 16 := by
  rw [resSigned, c.signedBase_eq]
  rfl

/-- A tile an entry byte resolves to lies inside VRAM. -/
theorem resolve_range (c : Config) (sg : Addressing) (b : Byte) :
    0 ≤ resolve c sg b ∧ resolve c sg b + 15 < 8192 := by
  have h1 := sext8_range b
  have h2 := b.isLt
  cases sg <;> simp only [resolve, resUnsigned, resSigned_eq, Config.tileDataBase] <;> omega

/-! ## Placement (R145, R149) -/

/-- The pixel row of a framebuffer index. -/
theorem fbIndex_div {gw tx ty : Nat} (r c : Fin 8) (htx : tx < gw) :
    fbIndex (8 * gw) tx ty r c / (8 * gw) = ty * 8 + r.val := by
  have hc := c.isLt
  rw [fbIndex, Nat.add_comm, Nat.add_mul_div_right _ _ (by omega), Nat.div_eq_of_lt (by omega), Nat.zero_add]

/-- The pixel column of a framebuffer index. -/
theorem fbIndex_mod {gw tx ty : Nat} (r c : Fin 8) (htx : tx < gw) :
    fbIndex (8 * gw) tx ty r c % (8 * gw) = tx * 8 + c.val := by
  have hc := c.isLt
  rw [fbIndex, Nat.add_comm, Nat.add_mul_mod_self_right, Nat.mod_eq_of_lt (by omega)]

/-- A tile inside the grid is placed inside the output area. -/
theorem fbIndex_lt {gw gh tx ty : Nat} (r c : Fin 8) (htx : tx < gw) (hty : ty < gh) :
    fbIndex (8 * gw) tx ty r c < 8 * gw * (8 * gh) := by
  have hr := r.isLt
  have hc := c.isLt
  have h1 : (ty * 8 + r.val + 1) * (8 * gw) ≤ 8 * gh * (8 * gw) := Nat.mul_le_mul_right _ (by omega)
  have h2 : fbIndex (8 * gw) tx ty r c < (ty * 8 + r.val + 1) * (8 * gw) := by
    rw [fbIndex, Nat.add_mul (ty * 8 + r.val) 1, Nat.one_mul]; omega
  rw [Nat.mul_comm (8 * gw)]
  omega

/-- The output areas of the legal grids fit the framebuffer (R10). -/
theorem area_le {gw gh : Nat} (hw : gw ≤ 32) (hh : gh ≤ 64) : 8 * gw * (8 * gh) ≤ 131072 :=
  Nat.mul_le_mul (show 8 * gw ≤ 256 by omega) (show 8 * gh ≤ 512 by omega)

/-! ## One tile -/

/-- Both bytes of a row of a tile inside VRAM. -/
theorem rowBytes_ok {v : Vram} {off : Int} (r : Fin 8) (h0 : 0 ≤ off) (h1 : off + 15 < 8192) :
    rowBytes v off r = .ok (vramByte v (off + 2 * r.val), vramByte v (off + 2 * r.val + 1)) := by
  have := r.isLt
  rw [rowBytes, memRead_ok (by omega) (by omega)]
  simp only
  rw [memRead_ok (by omega) (by omega)]

/-- `TILE` inside VRAM gives the eight rows of its bytes (R114). -/
theorem tile_ok {v : Vram} {off : Int} (h0 : 0 ≤ off) (h1 : off + 15 < 8192) :
    tile v off = .ok ((List.finRange 8).map fun r =>
      row (vramByte v (off + 2 * r.val)) (vramByte v (off + 2 * r.val + 1))) := by
  have h : tile v off = .ok ((List.finRange 8).flatMap fun r =>
      [row (vramByte v (off + 2 * r.val)) (vramByte v (off + 2 * r.val + 1))]) :=
    collect_ok fun r _ => by rw [rowBytes_ok r h0 h1]
  rw [h]
  congr 1

/-- The colour of pixel (`r`, `col`) of the tile at `off`. -/
def tilePixel (c : Config) (v : Vram) (off : Int) (pr : Profile) (r col : Fin 8) : Word :=
  color c pr (pix (vramByte v (off + 2 * r.val)) (vramByte v (off + 2 * r.val + 1)) col)

/-- The 64 writes of a tile whose pixels are `px`. -/
def tileWrites (outW tx ty : Nat) (px : Fin 8 → Fin 8 → Word) : List Write :=
  (List.finRange 8).flatMap fun r => (List.finRange 8).map fun col => (fbIndex outW tx ty r col, px r col)

/-- `BLIT` of a tile inside VRAM makes the tile's 64 writes (R148). -/
theorem blit_ok (c : Config) {v : Vram} (outW tx ty : Nat) {off : Int} (pr : Profile) (h0 : 0 ≤ off) (h1 : off + 15 < 8192) :
    blit c v outW tx ty off pr = .ok (tileWrites outW tx ty (tilePixel c v off pr)) := by
  refine collect_ok fun r _ => ?_
  rw [rowBytes_ok r h0 h1]
  rfl

theorem mem_tileWrites {outW tx ty : Nat} {px : Fin 8 → Fin 8 → Word} {w : Write} :
    w ∈ tileWrites outW tx ty px ↔ ∃ r col, w = (fbIndex outW tx ty r col, px r col) := by
  simp [tileWrites, eq_comm]

/-! ## One walk -/

/-- The writes of a walk that draws the tiles `drawn` picks, with the pixels `px`. -/
def gridWrites (gw gh : Nat) (drawn : Nat → Nat → Bool) (px : Nat → Nat → Fin 8 → Fin 8 → Word) : List Write :=
  (List.range gh).flatMap fun ty =>
    (List.range gw).flatMap fun tx => if drawn tx ty then tileWrites (8 * gw) tx ty (px tx ty) else []

/-- A walk whose every cell answers makes the writes of its grid. -/
theorem walk_ok {gw gh : Nat} {cell : Nat → Nat → Except Fault (List Write)} {drawn : Nat → Nat → Bool}
    {px : Nat → Nat → Fin 8 → Fin 8 → Word}
    (h : ∀ tx < gw, ∀ ty < gh, cell tx ty = .ok (if drawn tx ty then tileWrites (8 * gw) tx ty (px tx ty) else [])) :
    walk gw gh cell = .ok (gridWrites gw gh drawn px) :=
  collect_ok fun ty hty => collect_ok fun tx htx => h tx (List.mem_range.1 htx) ty (List.mem_range.1 hty)

theorem mem_gridWrites {gw gh : Nat} {drawn : Nat → Nat → Bool} {px : Nat → Nat → Fin 8 → Fin 8 → Word} {w : Write} :
    w ∈ gridWrites gw gh drawn px ↔
      ∃ ty < gh, ∃ tx < gw, drawn tx ty = true ∧ ∃ r col, w = (fbIndex (8 * gw) tx ty r col, px tx ty r col) := by
  simp only [gridWrites, List.mem_flatMap, List.mem_range]
  constructor
  · rintro ⟨ty, hty, tx, htx, hw⟩
    cases hd : drawn tx ty with
    | false => simp [hd] at hw
    | true =>
      rw [hd, if_pos rfl, mem_tileWrites] at hw
      exact ⟨ty, hty, tx, htx, hd, hw⟩
  · rintro ⟨ty, hty, tx, htx, hd, hw⟩
    exact ⟨ty, hty, tx, htx, by rw [hd, if_pos rfl, mem_tileWrites]; exact hw⟩

/-- What a walk leaves at pixel (x, y) of its output area: the pixel of the tile that covers it, if that tile is drawn. -/
theorem lastWrite_gridWrites {gw gh : Nat} {drawn : Nat → Nat → Bool} {px : Nat → Nat → Fin 8 → Fin 8 → Word} {x y : Nat}
    (hx : x < 8 * gw) (hy : y < 8 * gh) :
    lastWrite (gridWrites gw gh drawn px) (y * (8 * gw) + x) =
      if drawn (x / 8) (y / 8) then
        some (px (x / 8) (y / 8) ⟨y % 8, Nat.mod_lt _ (by decide)⟩ ⟨x % 8, Nat.mod_lt _ (by decide)⟩)
      else none := by
  have hi : y * (8 * gw) + x =
      fbIndex (8 * gw) (x / 8) (y / 8) ⟨y % 8, Nat.mod_lt _ (by decide)⟩ ⟨x % 8, Nat.mod_lt _ (by decide)⟩ := by
    simp only [fbIndex, Nat.div_add_mod']
  have huniq : ∀ w ∈ gridWrites gw gh drawn px, w.1 = y * (8 * gw) + x → drawn (x / 8) (y / 8) = true ∧
      w.2 = px (x / 8) (y / 8) ⟨y % 8, Nat.mod_lt _ (by decide)⟩ ⟨x % 8, Nat.mod_lt _ (by decide)⟩ := by
    intro w hw he
    obtain ⟨ty, hty, tx, htx, hd, r, col, rfl⟩ := mem_gridWrites.1 hw
    have hr := r.isLt
    have hc := col.isLt
    have hyq : y = ty * 8 + r.val := by
      rw [← fbIndex_div r col htx, show fbIndex (8 * gw) tx ty r col = y * (8 * gw) + x from he, Nat.add_comm,
        Nat.add_mul_div_right _ _ (by omega), Nat.div_eq_of_lt hx, Nat.zero_add]
    have hxq : x = tx * 8 + col.val := by
      rw [← fbIndex_mod r col htx, show fbIndex (8 * gw) tx ty r col = y * (8 * gw) + x from he, Nat.add_comm,
        Nat.add_mul_mod_self_right, Nat.mod_eq_of_lt hx]
    have e1 : y / 8 = ty := by omega
    have e2 : x / 8 = tx := by omega
    have e3 : (⟨y % 8, Nat.mod_lt _ (by decide)⟩ : Fin 8) = r := Fin.ext (by simp only; omega)
    have e4 : (⟨x % 8, Nat.mod_lt _ (by decide)⟩ : Fin 8) = col := Fin.ext (by simp only; omega)
    rw [e1, e2, e3, e4]
    exact ⟨hd, rfl⟩
  cases hd : drawn (x / 8) (y / 8) with
  | false =>
    rw [if_neg (by simp)]
    refine lastWrite_eq_none fun w hw he => ?_
    have := (huniq w hw he).1
    simp [hd] at this
  | true =>
    rw [if_pos rfl]
    refine lastWrite_eq_some ⟨_, mem_gridWrites.2 ⟨y / 8, by omega, x / 8, by omega, hd, _, _, rfl⟩, hi.symm⟩ ?_
    exact fun w hw he => (huniq w hw he).2

/-! ## One pass -/

theorem mem_prefill {c : Config} {outW outH : Nat} {w : Write} :
    w ∈ prefill c outW outH ↔ w.1 < outW * outH ∧ w.2 = c.sentinel := by
  obtain ⟨i, x⟩ := w
  simp only [prefill, List.mem_map, List.mem_range, Prod.mk.injEq]
  constructor
  · rintro ⟨j, hj, rfl, rfl⟩; exact ⟨hj, rfl⟩
  · rintro ⟨hj, rfl⟩; exact ⟨i, hj, rfl, rfl⟩

/-- Every pass on a legal grid whose cells answer completes. It leaves at each pixel of its output area the pixel of the tile
that covers it, or the sentinel where no tile is drawn; it leaves every word above the output area alone, and the framebuffer
in canonical form (R146 to R151). -/
theorem runPass_spec {gw gh : Nat} {cell : Nat → Nat → Except Fault (List Write)} {drawn : Nat → Nat → Bool}
    {px : Nat → Nat → Fin 8 → Fin 8 → Word} (s : State) (hw : gw ≤ 32) (hh : gh ≤ 64)
    (h : ∀ tx < gw, ∀ ty < gh, cell tx ty = .ok (if drawn tx ty then tileWrites (8 * gw) tx ty (px tx ty) else [])) :
    ∃ fb, runPass gw gh cell s = .next (s.completePass fb (8 * gw) (8 * gh)) ∧
      (∀ x < 8 * gw, ∀ y < 8 * gh, fbWord fb (y * (8 * gw) + x) =
        some (if drawn (x / 8) (y / 8) then
          px (x / 8) (y / 8) ⟨y % 8, Nat.mod_lt _ (by decide)⟩ ⟨x % 8, Nat.mod_lt _ (by decide)⟩
        else s.cfg.sentinel)) ∧
      (∀ i, 8 * gw * (8 * gh) ≤ i → fbWord fb i = fbWord s.fb i) ∧
      (fbWf s.fb = true → fbWf fb = true) := by
  have harea := area_le hw hh
  have hgrid : ∀ w ∈ gridWrites gw gh drawn px, w.1 < 8 * gw * (8 * gh) := by
    intro w hm
    obtain ⟨ty, hty, tx, htx, -, r, col, rfl⟩ := mem_gridWrites.1 hm
    exact fbIndex_lt r col htx hty
  have hin : ∀ w ∈ prefill s.cfg (8 * gw) (8 * gh) ++ gridWrites gw gh drawn px, w.1 < 8 * gw * (8 * gh) := by
    intro w hm
    rcases List.mem_append.1 hm with hm | hm
    · exact (mem_prefill.1 hm).1
    · exact hgrid w hm
  obtain ⟨fb, he, hr, hwf⟩ := memWrites_ok s.fb fun w hm => Nat.lt_of_lt_of_le (hin w hm) harea
  refine ⟨fb, ?_, fun x hx y hy => ?_, fun i hi => ?_, hwf⟩
  · rw [runPass, walk_ok h]
    simp only [he]
  · have hlt : y * (8 * gw) + x < 8 * gw * (8 * gh) := by
      have h1 : (y + 1) * (8 * gw) ≤ 8 * gh * (8 * gw) := Nat.mul_le_mul_right _ (by omega)
      rw [Nat.succ_mul] at h1
      rw [Nat.mul_comm (8 * gw)]
      omega
    have hpre : lastWrite (prefill s.cfg (8 * gw) (8 * gh)) (y * (8 * gw) + x) = some s.cfg.sentinel :=
      lastWrite_eq_some ⟨(y * (8 * gw) + x, s.cfg.sentinel), mem_prefill.2 ⟨hlt, rfl⟩, rfl⟩ fun w hm _ => (mem_prefill.1 hm).2
    rw [hr, lastWrite_append, lastWrite_gridWrites hx hy, hpre]
    split_ifs <;> rfl
  · rw [hr, lastWrite_eq_none fun w hm e => ?_]
    · simp
    · have := hin w hm
      omega

/-! ## The cells of the three commands -/

/-- A map entry inside VRAM is the byte there (R122). -/
theorem mapEntry_ok (v : Vram) {base x y : Nat} (h : base + y * 32 + x < 8192) :
    mapEntry v base x y = .ok (vramByte v ((base + y * 32 + x : Nat) : Int)) :=
  memRead_ok (by omega) (by omega)

/-- The pixel `DMAP` shows at tile position (tx, ty), row `r`, column `col` (R152). -/
def dmapPixel (c : Config) (v : Vram) (ms : MapSelect) (sg : Addressing) (pr : Profile) (tx ty : Nat) : Fin 8 → Fin 8 → Word :=
  tilePixel c v (resolve c sg (vramByte v ((mapBase ms + ty * 32 + tx : Nat) : Int))) pr

/-- The pixel `DDUAL` shows at tile position (tx, ty), row `r`, column `col` (R155). -/
def ddualPixel (c : Config) (v : Vram) (pr : Profile) (tx ty : Nat) : Fin 8 → Fin 8 → Word :=
  if ty < 32 then tilePixel c v (resUnsigned (vramByte v ((0x1800 + ty * 32 + tx : Nat) : Int))) .rgba
  else tilePixel c v (resSigned c (vramByte v ((0x1800 + ty * 32 + tx : Nat) : Int))) pr

/-- The pixel `DTILE` shows at a drawn tile position (tx, ty), row `r`, column `col` (R158). -/
def dtilePixel (c : Config) (v : Vram) (gw : Nat) (pr : Profile) (tx ty : Nat) : Fin 8 → Fin 8 → Word :=
  tilePixel c v (resDirect (ty * gw + tx)) pr

/-- A cell of `DMAP` inside its grid draws the tile its map entry names (R152). -/
theorem dmapCell_ok (c : Config) (v : Vram) (ms : MapSelect) (sg : Addressing) (pr : Profile) :
    ∀ tx < 32, ∀ ty < 32, dmapCell c v ms sg pr tx ty =
      .ok (if (fun _ _ => true : Nat → Nat → Bool) tx ty then tileWrites (8 * 32) tx ty (dmapPixel c v ms sg pr tx ty) else []) := by
  intro tx htx ty hty
  have hb : mapBase ms + ty * 32 + tx < 8192 := by
    cases ms <;> simp only [mapBase, Config.mapBase0, Config.mapBase1] <;> omega
  rw [dmapCell, mapEntry_ok v hb]
  exact blit_ok c _ _ _ _ (resolve_range _ _ _).1 (resolve_range _ _ _).2

/-- A cell of `DDUAL` inside its grid draws the tile its map entry names, unsigned above row 32 and signed from there (R155). -/
theorem ddualCell_ok (c : Config) (v : Vram) (pr : Profile) :
    ∀ tx < 32, ∀ ty < 64, ddualCell c v pr tx ty =
      .ok (if (fun _ _ => true : Nat → Nat → Bool) tx ty then tileWrites (8 * 32) tx ty (ddualPixel c v pr tx ty) else []) := by
  intro tx htx ty hty
  rw [ddualCell, mapEntry_ok v (by simp only [Config.mapBase0]; omega)]
  simp only [Config.dualSplit, if_true]
  by_cases h : ty < 32
  · rw [if_pos h, ddualPixel, if_pos h]
    exact blit_ok c _ _ _ _ (resolve_range c .unsigned _).1 (resolve_range c .unsigned _).2
  · rw [if_neg h, ddualPixel, if_neg h]
    exact blit_ok c _ _ _ _ (resolve_range c .signed _).1 (resolve_range c .signed _).2

/-- The ids of a grid stay below its number of tiles (R158). -/
theorem id_lt {gw gh tx ty : Nat} (htx : tx < gw) (hty : ty < gh) : ty * gw + tx < gw * gh := by
  have : (ty + 1) * gw ≤ gh * gw := Nat.mul_le_mul_right _ (by omega)
  rw [Nat.succ_mul] at this
  rw [Nat.mul_comm gw]
  omega

/-- A cell of `DTILE` draws the tile of its id while the id is below `n`, on a grid that stays inside VRAM (R158). -/
theorem dtileCell_ok (c : Config) (v : Vram) {n gw gh : Nat} (pr : Profile) (h : min n (gw * gh) ≤ 512) :
    ∀ tx < gw, ∀ ty < gh, dtileCell c v n gw pr tx ty =
      .ok (if (fun tx ty => decide (ty * gw + tx < n)) tx ty then tileWrites (8 * gw) tx ty (dtilePixel c v gw pr tx ty)
        else []) := by
  intro tx htx ty hty
  have hid := id_lt htx hty
  unfold dtileCell
  simp only [decide_eq_true_eq]
  split_ifs with hn
  · refine blit_ok c _ _ _ _ ?_ ?_ <;> simp only [resDirect] <;> omega
  · rfl

end Sys2Proof.Machine
end

