-- ==== Sys2Proof/Laws/Commands.lean ====
section
/-! SUPPORT. What a command can do, said once for all three (`exec_cases`), and what a step can do, said once for the five
transactions (`step_cases`). -/

namespace Sys2Proof.Machine

/-- When every test of the check phase is met a command is its pass (R182). -/
theorem underCheck_run {i : Instr} {s : State} {v : Vram} (hf : s.fault = none) (hl : legal s.cfg i = true)
    (hv : s.vram = some v) (ht : directTiles i ≤ 512) (pass : Vram → State → Host.Outcome State Fault Refusal) :
    underCheck i pass s = pass v s := by
  have := (check_eq_run_iff i s v).2 ⟨hf, hl, hv, ht⟩
  simp only [underCheck, this]

/-- The output area of a legal command: positive multiples of 8 that fit the fields of `DIMS` (R32, R85). -/
theorem outputSize_range {c : Config} {i : Instr} (h : legal c i = true) :
    (outputSize i).1 % 8 = 0 ∧ 0 < (outputSize i).1 ∧ (outputSize i).1 ≤ 256 ∧
      (outputSize i).2 % 8 = 0 ∧ 0 < (outputSize i).2 ∧ (outputSize i).2 ≤ 512 := by
  cases i with
  | dmap ms sg pr => simp [outputSize]
  | ddual pr => simp [outputSize]
  | dtile n gw gh pr =>
    simp only [legal, gridWidthLegal, gridHeightLegal, Bool.and_eq_true, decide_eq_true_eq] at h
    simp only [outputSize]
    omega

/-- What a pass leaves in the framebuffer of the state `s`, as far as the frame goes: its whole output area holds values, the
words above are as before, and the form is canonical. -/
def PassLeaves (i : Instr) (s : State) (fb : Fb) : Prop :=
  (∀ k < (outputSize i).1 * (outputSize i).2, (fbWord fb k).isSome = true) ∧
  (∀ k, (outputSize i).1 * (outputSize i).2 ≤ k → fbWord fb k = fbWord s.fb k) ∧
  (fbWf s.fb = true → fbWf fb = true)

/-- A pass leaves what `PassLeaves` says. -/
theorem runPass_leaves {i : Instr} {gw gh : Nat} {cell : Nat → Nat → Except Fault (List Write)} {drawn : Nat → Nat → Bool}
    {px : Nat → Nat → Fin 8 → Fin 8 → Word} (s : State) (hw : gw ≤ 32) (hh : gh ≤ 64)
    (h : ∀ tx < gw, ∀ ty < gh, cell tx ty = .ok (if drawn tx ty then tileWrites (8 * gw) tx ty (px tx ty) else []))
    (hi : outputSize i = (8 * gw, 8 * gh)) :
    ∃ fb, runPass gw gh cell s = .next (s.completePass fb (outputSize i).1 (outputSize i).2) ∧ PassLeaves i s fb := by
  obtain ⟨fb, h1, h2, h3, h4⟩ := runPass_spec s hw hh h
  unfold PassLeaves
  rw [hi]
  refine ⟨fb, h1, fun k hk => ?_, h3, h4⟩
  have hgw : 0 < 8 * gw := by
    rcases Nat.eq_zero_or_pos (8 * gw) with h0 | h0
    · simp [h0] at hk
    · exact h0
  have := h2 (k % (8 * gw)) (Nat.mod_lt _ hgw) (k / (8 * gw)) (Nat.div_lt_of_lt_mul hk)
  rw [Nat.div_add_mod'] at this
  rw [this]
  rfl

/-- Everything a command can do: nothing after a fault; record a fault; or, on a legal command with VRAM loaded and its tiles
inside it, complete its pass. -/
theorem exec_cases (i : Instr) (s : State) :
    (s.fault ≠ none ∧ exec i s = .next s) ∨
    (s.fault = none ∧ ∃ cause, exec i s = .next (s.raise cause (encode i))) ∨
    (s.fault = none ∧ legal s.cfg i = true ∧ directTiles i ≤ 512 ∧ (∃ v, s.vram = some v) ∧
      ∃ fb, exec i s = .next (s.completePass fb (outputSize i).1 (outputSize i).2) ∧ PassLeaves i s fb) := by
  have ok : ∀ {v : Vram} {o : Host.Outcome State Fault Refusal}, check i s = .run v → exec i s = o →
      (legal s.cfg i = true → directTiles i ≤ 512 →
        ∃ fb, o = .next (s.completePass fb (outputSize i).1 (outputSize i).2) ∧ PassLeaves i s fb) →
      (s.fault = none ∧ legal s.cfg i = true ∧ directTiles i ≤ 512 ∧ (∃ v, s.vram = some v) ∧
        ∃ fb, exec i s = .next (s.completePass fb (outputSize i).1 (outputSize i).2) ∧ PassLeaves i s fb) := by
    intro v o hc he hp
    obtain ⟨hf, hl, hv, ht⟩ := (check_eq_run_iff _ _ _).1 hc
    exact ⟨hf, hl, ht, ⟨v, hv⟩, he ▸ hp hl ht⟩
  cases i with
  | dmap ms sg pr =>
    rcases underCheck_cases (.dmap ms sg pr) (fun v s => runPass 32 32 (dmapCell s.cfg v ms sg pr) s) s with h | h | ⟨v, hc, he⟩
    · exact .inl h
    · exact .inr (.inl h)
    · refine .inr (.inr (ok hc he fun _ _ => ?_))
      exact runPass_leaves s (by decide) (by decide) (dmapCell_ok s.cfg v ms sg pr) rfl
  | ddual pr =>
    rcases underCheck_cases (.ddual pr) (fun v s => runPass 32 64 (ddualCell s.cfg v pr) s) s with h | h | ⟨v, hc, he⟩
    · exact .inl h
    · exact .inr (.inl h)
    · refine .inr (.inr (ok hc he fun _ _ => ?_))
      exact runPass_leaves s (by decide) (by decide) (ddualCell_ok s.cfg v pr) rfl
  | dtile n gw gh pr =>
    rcases underCheck_cases (.dtile n gw gh pr)
      (fun v s => runPass gw.toNat gh.toNat (dtileCell s.cfg v n.toNat gw.toNat pr) s) s with h | h | ⟨v, hc, he⟩
    · exact .inl h
    · exact .inr (.inl h)
    · refine .inr (.inr (ok hc he fun hl ht => ?_))
      simp only [legal, gridWidthLegal, gridHeightLegal, Bool.and_eq_true, decide_eq_true_eq] at hl
      exact runPass_leaves s hl.1.1.2.2 hl.1.2.2 (dtileCell_ok s.cfg v pr ht) rfl

/-- Everything a step that answers can do: nothing with no transaction to make; or one of the five transactions, on the state
in which the host's list has moved on. An `ISSUE` is a rejected word or a command. -/
theorem step_cases {s t : State} (h : step s = .next t) :
    (s.pending = [] ∧ t = s) ∨
    ∃ rest,
      (s.pending = .reset :: rest ∧ t = (s.nextTransaction rest).resetBlock) ∨
      (∃ buf, s.pending = .loadVram buf :: rest ∧ buf.length = 8192 ∧ t = (s.nextTransaction rest).loadBuffer buf) ∨
      (∃ w e, s.pending = .issue w :: rest ∧ decode w = .error e ∧ rejectWord w (s.nextTransaction rest) = .next t) ∨
      (∃ w i, s.pending = .issue w :: rest ∧ decode w = .ok i ∧ exec i (s.nextTransaction rest) = .next t) ∨
      (∃ r w, s.pending = .readReg r :: rest ∧ (s.nextTransaction rest).register r = some w ∧
        t = (s.nextTransaction rest).answer w) ∨
      (∃ i w, s.pending = .readFb i :: rest ∧ i < 131072 ∧ fbWord s.fb i = some w ∧
        t = (s.nextTransaction rest).answer w) := by
  unfold step hostStep at h
  split at h
  · rename_i hp
    cases h
    exact .inl ⟨hp, rfl⟩
  · rename_i tr rest hp
    refine .inr ⟨rest, ?_⟩
    rw [hp]
    cases tr with
    | reset => cases h; exact .inl ⟨rfl, rfl⟩
    | loadVram buf =>
      simp only [perform, loadVram] at h
      split_ifs at h with hl
      cases h
      exact .inr (.inl ⟨buf, rfl, hl, rfl⟩)
    | issue w =>
      simp only [perform, issue] at h
      cases hd : decode w with
      | error e => rw [hd] at h; exact .inr (.inr (.inl ⟨w, e, rfl, hd, h⟩))
      | ok i => rw [hd] at h; exact .inr (.inr (.inr (.inl ⟨w, i, rfl, hd, h⟩)))
    | readReg r =>
      simp only [perform, readReg] at h
      cases hr : (s.nextTransaction rest).register r with
      | none => rw [hr] at h; cases h
      | some w => rw [hr] at h; cases h; exact .inr (.inr (.inr (.inr (.inl ⟨r, w, rfl, hr, rfl⟩))))
    | readFb i =>
      simp only [perform, readFb] at h
      split_ifs at h with hi
      cases hw : fbWord (s.nextTransaction rest).fb i with
      | none => rw [hw] at h; cases h
      | some w => rw [hw] at h; cases h; exact .inr (.inr (.inr (.inr (.inr ⟨i, w, rfl, hi, hw, rfl⟩))))

end Sys2Proof.Machine
end

