-- ==== Sys2Proof/Laws/Outcome.lean ====
section
/-! SUPPORT. What the outcomes of a step and the final states are, each said once. -/

namespace Sys2Proof.Machine

/-- A fault is raised exactly when the next state has a record and the state had none. -/
theorem raisedFault_eq_some_iff {s t : State} {f : FaultRecord} :
    raisedFault s t = some f ↔ s.fault = none ∧ t.fault = some f := by
  unfold raisedFault
  cases s.fault <;> simp

/-- No fault is raised exactly when the state had a record or the next state has none. -/
theorem raisedFault_eq_none_iff {s t : State} : raisedFault s t = none ↔ s.fault ≠ none ∨ t.fault = none := by
  unfold raisedFault
  cases s.fault <;> simp

/-- A fault outcome is exactly a next state with a record where there was none. -/
theorem outcomeFrom_eq_fault_iff {s t : State} {f : FaultRecord} {o : Host.Outcome State Fault Refusal} :
    outcomeFrom s o = .fault f t ↔ o = .next t ∧ s.fault = none ∧ t.fault = some f := by
  cases o with
  | next u =>
    rw [outcomeFrom, ← raisedFault_eq_some_iff]
    cases h : raisedFault s u with
    | none =>
      simp only [Host.Outcome.next.injEq, reduceCtorEq, false_iff, not_and]
      rintro rfl
      simp [h]
    | some g =>
      simp only [StepOutcome.fault.injEq, Host.Outcome.next.injEq]
      constructor
      · rintro ⟨rfl, rfl⟩
        exact ⟨rfl, h⟩
      · rintro ⟨rfl, h'⟩
        exact ⟨Option.some.inj (h.symm.trans h'), rfl⟩
  | fault e => simp [outcomeFrom]
  | refused r => simp [outcomeFrom]

/-- A real step is exactly a next state with no record, or from a state that had one. -/
theorem outcomeFrom_eq_effect_iff {s t : State} {o : Host.Outcome State Fault Refusal} :
    outcomeFrom s o = .effect t ↔ o = .next t ∧ (s.fault ≠ none ∨ t.fault = none) := by
  cases o with
  | next u =>
    rw [outcomeFrom, ← raisedFault_eq_none_iff]
    cases h : raisedFault s u <;> simp <;> rintro rfl <;> simp [h]
  | fault e => simp [outcomeFrom]
  | refused r => simp [outcomeFrom]

@[simp] theorem outcomeFrom_refused (s : State) (r : Refusal) : outcomeFrom s (.refused r) = .noMove r := rfl
@[simp] theorem outcomeFrom_stop (s : State) (e : Fault) : outcomeFrom s (.fault e) = .stop e := rfl

/-- A state is final when no transaction is left and no fault is recorded. -/
theorem State.final_iff (s : State) : s.final = true ↔ s.pending = [] ∧ s.fault = none := by
  simp [State.final]

@[simp] theorem finalAfter_zero (s : State) : finalAfter 0 s = if s.final then some s else none := rfl

/-- The state after some steps is the state after the rest of them from the next state. -/
theorem finalAfter_succ {k : Nat} {s t : State} (h : step s = .next t) : finalAfter (k + 1) s = finalAfter k t := by
  rw [finalAfter, h]

/-- Whatever the number of steps, a state answered as final is final. -/
theorem finalAfter_final {k : Nat} {s t : State} (h : finalAfter k s = some t) : t.final = true := by
  induction k generalizing s with
  | zero =>
    rw [finalAfter_zero] at h
    split_ifs at h with hf
    cases h
    exact hf
  | succ k ih =>
    unfold finalAfter at h
    cases hs : step s with
    | next u => rw [hs] at h; exact ih h
    | fault e => rw [hs] at h; cases h
    | refused r => rw [hs] at h; cases h

end Sys2Proof.Machine
end

