-- ==== Sys2Proof/Laws/PerInstr.lean ====
section
/-! SUPPORT. Statements about every command as syntax, one lemma per constructor. -/

/-- The word of a command has the mask and match of its row of the opcode map (30_encoding.md R86). -/
def Sys2Proof.Laws.EncodingShape.Statement (i : Sys2Proof.Instr) : Prop :=
  Sys2Proof.encode i &&& Sys2Proof.opcodeMask i = Sys2Proof.opcodeMatch i

theorem Sys2Proof.Laws.EncodingShape.dmap (ms : Sys2Proof.MapSelect) (sg : Sys2Proof.Addressing) (pr : Sys2Proof.Profile) :
    Sys2Proof.Laws.EncodingShape.Statement (.dmap ms sg pr) := by
  cases ms <;> cases sg <;> cases pr <;> rfl

theorem Sys2Proof.Laws.EncodingShape.ddual (pr : Sys2Proof.Profile) :
    Sys2Proof.Laws.EncodingShape.Statement (.ddual pr) := by
  cases pr <;> rfl

theorem Sys2Proof.Laws.EncodingShape.dtile (n : BitVec 11) (gw : BitVec 6) (gh : BitVec 7) (pr : Sys2Proof.Profile) :
    Sys2Proof.Laws.EncodingShape.Statement (.dtile n gw gh pr) := by
  have hmask : Sys2Proof.opcodeMask (.dtile n gw gh pr) = 0xF8000003#32 := rfl
  have hmatch : Sys2Proof.opcodeMatch (.dtile n gw gh pr) = 0x30000000#32 := rfl
  unfold Sys2Proof.Laws.EncodingShape.Statement
  rw [hmask, hmatch]
  apply BitVec.eq_of_getLsbD_eq
  intro k hk
  simp only [Sys2Proof.encode, BitVec.getLsbD_and, BitVec.getLsbD_append]
  interval_cases k <;> simp
end

