-- ==== Sys2Proof/Tests/Slice0.lean ====
section
/-! SUPPORT. The model's own tests: words and results taken from the spec's tables and worked examples, and, for every statement
of Certificates/Slice0/Obligations.lean that has hypotheses, a witness that meets them. -/

namespace Sys2Proof.Tests

open Sys2Proof Sys2Proof.Machine

/-! ## Configurations and states -/

/-- `TESTCFG` (95_test_vectors.md section 1). -/
def testCfg : Config where
  pal := #v[0xE0F8D0FF#32, 0x88C070FF#32, 0x346856FF#32, 0x081820FF#32]
  hasGray := true
  shade := #v[0xE0#8, 0x90#8, 0x50#8, 0x10#8]

/-- `TESTCFG` on a block without the grayscale profile. -/
def plainCfg : Config := { testCfg with hasGray := false, valid := by decide }

/-- A block after reset, with `TESTCFG`. -/
def fresh : State := { State.reset with cfg := testCfg }

/-- A block with `v` loaded. -/
def loaded (v : Vram) : State := { fresh with vram := some v }

/-- A loaded block whose host makes the transaction `t` next. -/
def asked (v : Vram) (t : Transaction) : State := { loaded v with pending := [t] }

/-- A block on which a command has faulted. -/
def faulted : State := { fresh with fault := some ⟨.vramNotLoaded, 0x10000000#32⟩ }

/-- A block on which an 8×8 pass has completed. -/
def finished : State := { loaded [] with fb := (List.range 64).map fun i => (i, 0#32), outW := 8#10, outH := 8#10 }

/-- The bytes `bs` from offset `a` up. -/
def bytesAt (a : Nat) (bs : List Byte) : Vram := vramOfBytes a bs

/-- The tile of 40_bitplane_decoder.md R114's example, at offset 0. -/
def sampleTile : Vram := bytesAt 0
  [0x3C#8, 0x7E#8, 0x42#8, 0x42#8, 0x42#8, 0x42#8, 0x42#8, 0x42#8, 0x7E#8, 0x5E#8, 0x7E#8, 0x0A#8, 0x7C#8, 0x56#8, 0x38#8, 0x7C#8]

/-- `bufC` (95_test_vectors.md P3). -/
def bufC : Vram :=
  bytesAt 0x0200 (List.replicate 8 [0xFF#8, 0x00#8]).flatten ++ bytesAt 0x0800 (List.replicate 16 0xFF#8) ++
  bytesAt 0x1200 (List.replicate 8 [0x00#8, 0xFF#8]).flatten ++ bytesAt 0x1800 [0x20#8, 0x80#8] ++
  bytesAt 0x1C00 [0x80#8, 0x20#8]

/-- The answer of an operation, if it did not stop. -/
def answerOf {α : Type} : Except Fault α → Option α
  | .ok x => some x
  | .error _ => none

/-- The next state of a step, if there is one. -/
def nextOf : Host.Outcome State Fault Refusal → Option State
  | .next s => some s
  | .fault _ => none
  | .refused _ => none

/-- The refusal of a step, if it was one. -/
def refusalOf : Host.Outcome State Fault Refusal → Option Refusal
  | .next _ => none
  | .fault _ => none
  | .refused r => some r

/-! ## Configurations that are none: each constraint broken (93_implementation_defined.md U4, U5), and `TESTCFG` -/

/-- Parameters with the sentinel equal to `PAL[3]`. -/
def paletteClash : Params := { testCfg.toParams with sentinel := 0x081820FF#32 }

/-- Parameters with the sentinel equal to `GRAY(SHADE[1])`; on a block without the grayscale profile this breaks nothing. -/
def shadeClash (hasGray : Bool) : Params := { testCfg.toParams with hasGray := hasGray, sentinel := 0x909090FF#32 }

/-- Parameters with the base that the source's mis-evaluated examples imply (90_conflicts.md C1). -/
def wrongBase : Params := { testCfg.toParams with signedBase := 0x0800 }

theorem test_ofParams :
    Config.ofParams testCfg.toParams = some testCfg ∧ testCfg.sentinel = 0xFF00FFFF#32 ∧ testCfg.signedBase = 0x1000 ∧
    Config.ofParams paletteClash = none ∧ Config.ofParams (shadeClash true) = none ∧
    (Config.ofParams (shadeClash false)).isSome = true ∧ Config.ofParams wrongBase = none := by decide

/-! ## WellFormed: an ill-formed term for each check of R87, and terms at the bounds (95_test_vectors.md section 3.5) -/

theorem test_wellFormed_gray :
    ¬ (Instr.dmap .map0 .unsigned .gray).WellFormed plainCfg ∧ ¬ (Instr.ddual .gray).WellFormed plainCfg ∧
    ¬ (Instr.dtile 3#11 2#6 2#7 .gray).WellFormed plainCfg ∧ (Instr.dmap .map0 .unsigned .gray).WellFormed testCfg ∧
    (Instr.ddual .rgba).WellFormed plainCfg := by decide

theorem test_wellFormed_gridWidth :
    ¬ (Instr.dtile 4#11 0#6 1#7 .rgba).WellFormed testCfg ∧ ¬ (Instr.dtile 4#11 33#6 1#7 .rgba).WellFormed testCfg ∧
    (Instr.dtile 4#11 1#6 1#7 .rgba).WellFormed testCfg ∧ (Instr.dtile 4#11 32#6 1#7 .rgba).WellFormed testCfg := by decide

theorem test_wellFormed_gridHeight :
    ¬ (Instr.dtile 1#11 1#6 0#7 .rgba).WellFormed testCfg ∧ ¬ (Instr.dtile 4#11 1#6 65#7 .rgba).WellFormed testCfg ∧
    (Instr.dtile 1#11 1#6 64#7 .rgba).WellFormed testCfg := by decide

theorem test_wellFormed_tileCount :
    ¬ (Instr.dtile 1025#11 32#6 64#7 .rgba).WellFormed testCfg ∧ (Instr.dtile 1024#11 32#6 64#7 .rgba).WellFormed testCfg ∧
    (Instr.dtile 0#11 4#6 4#7 .rgba).WellFormed testCfg := by decide

/-! ## Decoding: words written out bit by bit from R82, and illegal words of 95_test_vectors.md section 3.5 -/

/-- OP 0001, 25 zeros, PR 1, SG 0, MS 1. -/
theorem test_decode_dmap :
    decodeTableWord 32 0b00010000000000000000000000000101 = some (.dmap .map1 .unsigned .gray) := by decide

/-- OP 0010, 25 zeros, PR 1, 2 zeros. -/
theorem test_decode_ddual : decodeTableWord 32 0b00100000000000000000000000000100 = some (.ddual .gray) := by decide

/-- OP 0011, 0, GH 1000000, GW 100000, N 00000000011, PR 1, 00: each field at its own bits. -/
theorem test_decode_dtile :
    decodeTableWord 32 0b00110100000010000000000000011100 = some (.dtile 3#11 32#6 64#7 .gray) := by decide

theorem test_decode_reserved :
    decodeTableWord 32 0x10000008 = none ∧ decodeTableWord 32 0x18000000 = none ∧ decodeTableWord 32 0x20000001 = none ∧
    decodeTableWord 32 0x20000002 = none ∧ decodeTableWord 32 0x38104008 = none ∧ decodeTableWord 32 0x30104009 = none ∧
    decodeTableWord 32 0x3010400A = none ∧ decodeTableWord 32 0x00000000 = none ∧ decodeTableWord 32 0x40000000 = none ∧
    decodeTableWord 32 0xF0000000 = none ∧ decodeTableWord 32 0xFFFFFFFF = none := by decide

/-- Field values outside R87 are illegal, and so is `PR` = 1 without the grayscale profile. -/
theorem test_decodeCommand_illegal :
    decodeCommand testCfg 0x30100020#32 = none ∧ decodeCommand testCfg 0x30184020#32 = none ∧
    decodeCommand testCfg 0x30004008#32 = none ∧ decodeCommand testCfg 0x34104020#32 = none ∧
    decodeCommand testCfg 0x34082008#32 = none ∧ decodeCommand plainCfg 0x10000004#32 = none ∧
    decodeCommand plainCfg 0x20000004#32 = none ∧ decodeCommand plainCfg 0x3020801C#32 = none ∧
    decodeCommand testCfg 0x34004008#32 = some (.dtile 1#11 1#6 64#7 .rgba) := by decide

theorem test_assembly :
    assembly (.dmap .map1 .signed .gray) = "DMAP.S 1, GRAY" ∧ assembly (.ddual .gray) = "DDUAL GRAY" ∧
    assembly (.dtile 3#11 2#6 2#7 .rgba) = "DTILE 3, 2, 2" := by decide

/-! ## The sub-blocks -/

/-- R114's example. -/
theorem test_tile_example :
    (answerOf (tile sampleTile 0)).map (fun rows => rows.map Vector.toList) =
      some [[0, 2, 3, 3, 3, 3, 2, 0], [0, 3, 0, 0, 0, 0, 3, 0], [0, 3, 0, 0, 0, 0, 3, 0], [0, 3, 0, 0, 0, 0, 3, 0],
        [0, 3, 1, 3, 3, 3, 3, 0], [0, 1, 1, 1, 3, 1, 3, 0], [0, 3, 1, 3, 1, 3, 2, 0], [0, 2, 3, 3, 3, 2, 0, 0]] := by
  decide

/-- 95_test_vectors.md section 3.2. -/
theorem test_resolver :
    resSigned testCfg 0x20#8 = 0x1200 ∧ resUnsigned 0x20#8 = 0x0200 ∧ resSigned testCfg 0x81#8 = 0x0810 ∧
    resSigned testCfg 0xFE#8 = 0x0FE0 := by decide

/-- 95_test_vectors.md section 3.3. -/
theorem test_color :
    color testCfg .rgba 2#2 = 0x346856FF#32 ∧ color testCfg .gray 1#2 = 0x909090FF#32 ∧ color testCfg .gray 3#2 = 0x101010FF#32 :=
  by decide

/-- 95_test_vectors.md section 3.4. -/
theorem test_fbIndex :
    fbIndex 16 1 1 0 0 = 136 ∧ fbIndex 128 15 23 7 7 = 24575 ∧ fbIndex 256 31 31 7 7 = 65535 := by decide

/-! ## The commands -/

/-- The first and the last write of a cell. -/
def cornersOf (cell : Except Fault (List Write)) : Option (Option Write × Option Write) :=
  (answerOf cell).map fun ws => (ws.head?, ws.getLast?)

/-- P3: the cells (0,0) and (1,0) of `DMAP.U 0`, `DMAP.S 0` and `DMAP.S 1, GRAY`. -/
theorem test_dmap_cells :
    cornersOf (dmapCell testCfg bufC .map0 .unsigned .rgba 0 0) = some (some (0, 0x88C070FF#32), some (1799, 0x88C070FF#32)) ∧
    cornersOf (dmapCell testCfg bufC .map0 .signed .rgba 0 0) = some (some (0, 0x346856FF#32), some (1799, 0x346856FF#32)) ∧
    cornersOf (dmapCell testCfg bufC .map1 .signed .gray 1 0) = some (some (8, 0x505050FF#32), some (1807, 0x505050FF#32)) := by
  decide

/-- P5: `DMAP.U 0` before any load faults with `VRAM_NOT_LOADED`. -/
theorem test_dmap_not_loaded :
    (nextOf (exec (.dmap .map0 .unsigned .rgba) fresh)).map (fun s => (s.status, s.fcmd)) =
      some (0x00000025#32, 0x10000000#32) := by decide

/-- P3: `DDUAL GRAY` draws row 0 unsigned in RGBA and row 32 signed in gray, from tilemap 1, 65536 words further on. -/
theorem test_ddual_cells :
    cornersOf (ddualCell testCfg bufC .gray 0 0) = some (some (0, 0x88C070FF#32), some (1799, 0x88C070FF#32)) ∧
    cornersOf (ddualCell testCfg bufC .gray 1 32) = some (some (65544, 0x505050FF#32), some (67343, 0x505050FF#32)) := by
  decide

/-- `DDUAL GRAY` on a block without the profile is illegal, even before any load. -/
theorem test_ddual_no_gray :
    (nextOf (exec (.ddual .gray) { fresh with cfg := plainCfg })).map (fun s => (s.status, s.fcmd)) =
      some (0x00000011#32, 0x20000004#32) := by decide

/-- `DTILE 1, 1, 2` on the tile of R114's example: its pixels, then the sentinel below, and `DIMS`. -/
theorem test_dtile_pass :
    (nextOf (exec (.dtile 1#11 1#6 2#7 .rgba) (loaded sampleTile))).map (fun s =>
      (fbWord s.fb 1, fbWord s.fb 2, fbWord s.fb 60, fbWord s.fb 64, fbWord s.fb 128, s.dims)) =
      some (some 0x346856FF#32, some 0x081820FF#32, some 0x081820FF#32, some 0xFF00FFFF#32, none, 0x00100008#32) := by
  decide

/-- `DTILE 513, 32, 17` faults with `VRAM_OUT_OF_RANGE` (95_test_vectors.md section 3.6). -/
theorem test_dtile_out_of_range :
    (nextOf (exec (.dtile 513#11 32#6 17#7 .rgba) (loaded []))).map (fun s => (s.status, s.dims, s.fcmd)) =
      some (0x00000037#32, 0#32, 0x31181008#32) := by decide

/-! ## Transactions -/

/-- 95_test_vectors.md section 3.6, the row "reserved bit". -/
theorem test_issue_reserved_bit :
    (nextOf (step (asked [] (.issue 0x10000008#32)))).map (fun s => (s.status, s.fcmd)) =
      some (0x00000017#32, 0x10000008#32) := by decide

/-- The first step after reset with a placed word runs it: nothing is loaded, so the fault of R180 is taken. -/
theorem test_withFetchWord :
    (nextOf (step (State.reset.withFetchWord 32 0x20000000))).map (fun s => s.fault) =
      some (some ⟨.vramNotLoaded, 0x20000000#32⟩) := by decide

/-- A command after a fault is ignored; a read shows the first fault. -/
theorem test_sticky :
    (nextOf (step { faulted with pending := [.issue 0x00000000#32] })).map (fun s => (s.status, s.fcmd)) =
      some (0x00000025#32, 0x10000000#32) ∧
    (nextOf (step { faulted with pending := [.readReg 1] })).map (fun s => s.reply) = some (some 0x00000025#32) := by
  decide

/-- `RESET` clears everything but the configuration (P4). -/
theorem test_reset :
    (nextOf (step { finished with pending := [.reset] })).map (fun s => (s.status, s.dims, s.fcmd, s.fb.length, s.vram.isSome)) =
      some (0x00000004#32, 0#32, 0#32, 0, false) := by decide

/-- Moves of the host that the spec gives no meaning are refused. -/
theorem test_refused :
    refusalOf (step (asked [] (.readReg 0))) = some (.readRegUndefined 0) ∧
    refusalOf (step (asked [] (.readReg 4))) = some (.readRegUndefined 4) ∧
    refusalOf (step (asked [] (.readFb 0))) = some (.readFbNoValue 0) ∧
    refusalOf (step (asked [] (.readFb 131072))) = some (.readFbOutOfRange 131072) ∧
    refusalOf (step (asked [] (.loadVram [0x00#8]))) = some (.loadVramWrongLength 1) := by decide

/-- R191: the word with a reserved bit makes a fault outcome, the same word after a fault a real step, `READ_REG` 0 no move; and
the faulted run has no final state until a `RESET` (R185). -/
theorem test_outcomes :
    stepOutcome (asked [] (.issue 0x10000008#32)) =
      .fault ⟨.illegalCommand, 0x10000008#32⟩ { loaded [] with fault := some ⟨.illegalCommand, 0x10000008#32⟩ } ∧
    stepOutcome { faulted with pending := [.issue 0x10000008#32] } = .effect faulted ∧
    stepOutcome (asked [] (.readReg 0)) = .noMove (.readRegUndefined 0) ∧
    (asked [] (.issue 0x10000008#32)).finalState = none ∧
    ({ loaded [] with pending := [.issue 0x10000008#32, .reset] } : State).finalState = some fresh := by decide

/-! ## Witnesses: for each statement with hypotheses, values that meet them, at the bounds of each clause -/

theorem witness_TileDecodesItsSixteenBytes :
    (∃ off : Int, 0 ≤ off ∧ off + 15 ≤ 8191 ∧ off = 8176) ∧
    ∃ v v' : Vram, v ≠ v' ∧ ∀ k : Fin 16, memRead v' ((0 : Int) + k.val) = memRead v ((0 : Int) + k.val) :=
  ⟨⟨8176, by decide⟩, [], [(16, 1#8)], by decide, fun k => by fin_cases k <;> rfl⟩

theorem witness_BlitPlacesTheDecodedTile : (∃ rows, tile [] 0 = .ok rows) ∧ ∃ rows, tile [] 8176 = .ok rows :=
  ⟨⟨_, tile_ok (by decide) (by decide)⟩, ⟨_, tile_ok (by decide) (by decide)⟩⟩

theorem witness_ResolverForms : (0x7F#8).toNat < 128 ∧ 128 ≤ (0x80#8).toNat := by decide

theorem witness_ResolverWindowsAndForms :
    ((0x80#8).getLsbD 7 = true ∧ 0x80 ≤ (0x80#8).toNat) ∧ ((0x7F#8).getLsbD 7 = false ∧ (0x7F#8).toNat < 0x80) ∧
    (∃ x y : Nat, x < 32 ∧ y < 32 ∧ x = 31 ∧ y = 31) ∧ ∃ x y : Nat, x < 32 ∧ y < 64 ∧ x = 31 ∧ y = 63 :=
  ⟨by decide, by decide, ⟨31, 31, by decide⟩, 31, 63, by decide⟩

theorem witness_PixelIndexInsideOutputArea : ∃ gw gh tx ty : Nat, gw ≤ 32 ∧ gh ≤ 64 ∧ tx < gw ∧ ty < gh ∧ tx = 31 ∧ ty = 63 :=
  ⟨32, 64, 31, 63, by decide⟩

theorem witness_PlacementIsOneToOne :
    (∃ gw tx tx' : Nat, tx < gw ∧ tx' < gw ∧ fbIndex (8 * gw) tx 63 7 7 = fbIndex (8 * gw) tx' 63 7 7) ∧
    ∃ gw px py tx : Nat, px < 8 * gw ∧ tx < gw ∧ fbIndex (8 * gw) tx 1 0 7 = py * (8 * gw) + px :=
  ⟨⟨32, 31, 31, by decide⟩, 1, 7, 8, 0, by decide⟩

theorem witness_VramReadIsBoundsChecked :
    ((0 : Int) ≤ 0 ∧ (0 : Int) ≤ 8191) ∧ ((0 : Int) ≤ 8191 ∧ (8191 : Int) ≤ 8191) ∧ ((-1 : Int) < 0) ∧ ((8191 : Int) < 8192) := by
  decide

theorem witness_FbWriteChangesOneWord :
    (∃ i j : Nat, i ≤ 131071 ∧ j ≠ i ∧ i = 131071) ∧ (∃ i : Nat, 131071 < i ∧ i = 131072) ∧ fbWf [(131071, 0#32)] = true :=
  ⟨⟨131071, 0, by decide⟩, ⟨131072, by decide⟩, by decide⟩

theorem witness_WalkWritesEachCoveredWordOnce : ∃ n gw gh : Nat, min n (gw * gh) ≤ 512 ∧ n = 1024 ∧ gw = 16 ∧ gh = 32 :=
  ⟨1024, 16, 32, by decide⟩

theorem witness_WalkOrderIsNotObservable :
    ∃ (fb : Fb) (ws ws' : List Write), fbWf fb = true ∧ (∀ w ∈ ws, w.1 < 131072) ∧ (ws.map Prod.fst).Nodup ∧ ws.Perm ws' ∧
      ws ≠ ws' :=
  ⟨[(5, 9#32)], [(0, 1#32), (131071, 2#32)], [(131071, 2#32), (0, 1#32)], by decide, by decide, by decide, List.Perm.swap _ _ _,
    by decide⟩

theorem witness_WrittenWordsIndependentOfVram : ∃ n gw gh : Nat, min n (gw * gh) ≤ 512 ∧ n = 512 ∧ gw = 32 ∧ gh = 64 :=
  ⟨512, 32, 64, by decide⟩

theorem witness_WriteCounts : ∃ n gw gh : Nat, min n (gw * gh) ≤ 512 ∧ n = 0 ∧ gw = 32 ∧ gh = 64 := ⟨0, 32, 64, by decide⟩

/-- `DMAP` in both profiles, on a block with the grayscale profile and on one without. -/
theorem witness_DmapPass :
    (∃ (s : State) (v : Vram) (pr : Profile), s.fault = none ∧ s.vram = some v ∧ (pr = .gray → s.cfg.hasGray = true) ∧ pr = .gray) ∧
    (∃ (s : State) (v : Vram) (pr : Profile), s.fault = none ∧ s.vram = some v ∧ (pr = .gray → s.cfg.hasGray = true) ∧
      s.cfg.hasGray = false) ∧
    ∃ px py i : Nat, px < 256 ∧ py < 256 ∧ 65536 ≤ i ∧ px = 255 ∧ py = 255 ∧ i = 65536 :=
  ⟨⟨loaded bufC, bufC, .gray, by decide⟩, ⟨{ loaded bufC with cfg := plainCfg }, bufC, .rgba, by decide⟩, 255, 255, 65536, by decide⟩

/-- `DDUAL` in both profiles, with the last pixel row of each half. -/
theorem witness_DdualPass :
    (∃ (s : State) (v : Vram) (pr : Profile), s.fault = none ∧ s.vram = some v ∧ (pr = .gray → s.cfg.hasGray = true) ∧ pr = .gray) ∧
    (∃ (s : State) (v : Vram) (pr : Profile), s.fault = none ∧ s.vram = some v ∧ (pr = .gray → s.cfg.hasGray = true) ∧
      s.cfg.hasGray = false) ∧
    ∃ px py py' i : Nat, px < 256 ∧ py < 512 ∧ py / 8 ≤ 31 ∧ py' < 512 ∧ ¬ py' / 8 ≤ 31 ∧ 131072 ≤ i ∧ py = 255 ∧ py' = 256 ∧
      i = 131072 :=
  ⟨⟨loaded bufC, bufC, .gray, by decide⟩, ⟨{ loaded bufC with cfg := plainCfg }, bufC, .rgba, by decide⟩,
    255, 255, 256, 131072, by decide⟩

/-- `DTILE` at the bounds of its fields and of the range check, with a drawn and an undrawn position. -/
theorem witness_DtilePass :
    (∃ (s : State) (v : Vram) (n : BitVec 11) (gw : BitVec 6) (gh : BitVec 7) (pr : Profile),
      s.fault = none ∧ s.vram = some v ∧ (pr = .gray → s.cfg.hasGray = true) ∧ 1 ≤ gw.toNat ∧ gw.toNat ≤ 32 ∧ 1 ≤ gh.toNat ∧
      gh.toNat ≤ 64 ∧ n.toNat ≤ 1024 ∧ min n.toNat (gw.toNat * gh.toNat) ≤ 512 ∧ pr = .gray ∧ n = 512#11 ∧ gw = 32#6 ∧ gh = 64#7) ∧
    (∃ (s : State) (v : Vram) (n : BitVec 11) (gw : BitVec 6) (gh : BitVec 7) (pr : Profile),
      s.fault = none ∧ s.vram = some v ∧ (pr = .gray → s.cfg.hasGray = true) ∧ 1 ≤ gw.toNat ∧ gw.toNat ≤ 32 ∧ 1 ≤ gh.toNat ∧
      gh.toNat ≤ 64 ∧ n.toNat ≤ 1024 ∧ min n.toNat (gw.toNat * gh.toNat) ≤ 512 ∧ pr = .rgba ∧ n = 1024#11 ∧ gw = 1#6 ∧ gh = 1#7) ∧
    (∃ px py n gw gh : Nat, px < 8 * gw ∧ py < 8 * gh ∧ n ≤ (py / 8) * gw + px / 8 ∧ n = 3 ∧ gw = 2 ∧ gh = 2) ∧
    ∃ px py n gw gh : Nat, px < 8 * gw ∧ py < 8 * gh ∧ (py / 8) * gw + px / 8 < n ∧ n = 3 ∧ gw = 2 ∧ gh = 2 :=
  ⟨⟨loaded [], [], 512#11, 32#6, 64#7, .gray, by decide⟩, ⟨loaded [], [], 1024#11, 1#6, 1#7, .rgba, by decide⟩,
    ⟨15, 15, 3, 2, 2, by decide⟩, 7, 15, 3, 2, 2, by decide⟩

theorem witness_DdualIsTwoDmapsStacked :
    ∃ (s s₁ s₂ : State) (v : Vram) (pr : Profile), s.vram = some v ∧ s₁.vram = some v ∧ s₂.vram = some v ∧ s₁.cfg = s.cfg ∧
      s₂.cfg = s.cfg ∧ s.fault = none ∧ s₁.fault = none ∧ s₂.fault = none ∧ (pr = .gray → s.cfg.hasGray = true) ∧ s ≠ s₁ ∧
      pr = .gray :=
  ⟨loaded [], finished, loaded [], [], .gray, by decide⟩

/-- The all-zero buffer, in the unsigned RGBA form, on a configuration with both profiles. -/
theorem witness_DmapLeavesNoSentinel :
    ∃ (s : State) (v : Vram) (sg : Addressing) (pr : Profile), s.fault = none ∧ s.vram = some v ∧
      (pr = .gray → s.cfg.hasGray = true) ∧ s.cfg.hasGray = true ∧ (∀ a : Int, 0 ≤ a → a ≤ 8191 → memRead v a = .ok 0x00#8) ∧
      sg = .unsigned ∧ pr = .rgba :=
  ⟨loaded [], [], .unsigned, .rgba, by decide, by decide, by decide, by decide,
    fun a h0 h1 => memRead_ok h0 (by omega), by decide, by decide⟩

theorem witness_DtileCornerCases :
    (∃ (s : State) (v : Vram) (gw : BitVec 6) (gh : BitVec 7), s.fault = none ∧ s.vram = some v ∧ 1 ≤ gw.toNat ∧ gw.toNat ≤ 32 ∧
      1 ≤ gh.toNat ∧ gh.toNat ≤ 64 ∧ gw = 32#6 ∧ gh = 64#7) ∧
    ∃ (s : State) (v : Vram) (n n' : BitVec 11) (gw : BitVec 6) (gh : BitVec 7), s.fault = none ∧ s.vram = some v ∧
      1 ≤ gw.toNat ∧ gw.toNat ≤ 32 ∧ 1 ≤ gh.toNat ∧ gh.toNat ≤ 64 ∧ n.toNat ≤ 1024 ∧ n'.toNat ≤ 1024 ∧
      gw.toNat * gh.toNat ≤ 512 ∧ gw.toNat * gh.toNat ≤ n.toNat ∧ gw.toNat * gh.toNat ≤ n'.toNat ∧
      n ≠ n' :=
  ⟨⟨loaded [], [], 32#6, 64#7, by decide⟩, loaded [], [], 512#11, 1024#11, 32#6, 16#7, by decide⟩

theorem witness_DisplayGridViewFaults : ∃ (s : State) (v : Vram), s.fault = none ∧ s.vram = some v :=
  ⟨loaded bufC, bufC, by decide⟩

theorem witness_EqualCommandsEqualOutput :
    ∃ s s' : State, s.vram = s'.vram ∧ s.cfg = s'.cfg ∧ s.fault = none ∧ s'.fault = none ∧ s.fb ≠ s'.fb :=
  ⟨loaded [], finished, by decide⟩

/-- A command that faults (DMAP, before a load), one that is ignored, and one that completes (DTILE 1, 1, 1). -/
theorem witness_CommandFrame :
    (∃ t, exec (.dmap .map0 .unsigned .rgba) fresh = .next t ∧ t.fault ≠ none) ∧
    (∃ t, exec (.ddual .rgba) faulted = .next t ∧ t.fault ≠ none) ∧
    ∃ t, exec (.dtile 1#11 1#6 1#7 .rgba) (loaded sampleTile) = .next t ∧ t.fault = none := by
  refine ⟨⟨_, rfl, by decide⟩, ⟨_, rfl, by decide⟩, ?_⟩
  obtain ⟨fb, h, -⟩ := runPass_spec (loaded sampleTile) (by decide) (by decide)
    (dtileCell_ok (gh := 1) testCfg sampleTile (n := 1) (gw := 1) .rgba (by decide))
  exact ⟨_, h, rfl⟩

theorem witness_FaultsArePrecise : ∃ t, exec (.ddual .gray) { fresh with cfg := plainCfg } = .next t := ⟨_, rfl⟩

theorem witness_CommandTraps :
    faulted.fault ≠ none ∧
    (fresh.fault = none ∧ ¬ (Instr.dtile 1025#11 1#6 1#7 .rgba).WellFormed fresh.cfg) ∧
    (fresh.fault = none ∧ (Instr.dtile 1024#11 32#6 64#7 .rgba).WellFormed fresh.cfg ∧ fresh.vram = none) ∧
    ((loaded []).fault = none ∧ (Instr.dtile 513#11 32#6 17#7 .rgba).WellFormed (loaded []).cfg ∧ (loaded []).vram = some [] ∧
      512 < min (513#11).toNat ((32#6).toNat * (17#7).toNat)) := by decide

theorem witness_StepRunsTheIssuedCommand :
    (∃ (s : State) (w : Word) (rest : List Transaction) (i : Instr), s.pending = .issue w :: rest ∧ decode w = .ok i) ∧
    (∃ (s : State) (t : Transaction) (rest : List Transaction), s.pending = t :: rest) ∧
    (∃ s : State, s.pending = []) ∧ ∃ (w : Nat) (i : Instr), decodeTableWord 32 w = some i :=
  ⟨⟨asked [] (.issue 0x10000003#32), _, _, .dmap .map1 .signed .rgba, rfl, rfl⟩, ⟨asked [] .reset, _, _, rfl⟩, ⟨fresh, rfl⟩,
    0x30208018, .dtile 3#11 2#6 2#7 .rgba, by decide⟩

theorem witness_IssueRunsTheCheckInOrder :
    (∃ (s : State) (w : Word) (rest : List Transaction), s.pending = .issue w :: rest ∧ s.fault ≠ none) ∧
    (∃ (s : State) (w : Word) (rest : List Transaction), s.pending = .issue w :: rest ∧ s.fault = none ∧
      decodeCommand s.cfg w = none) ∧
    (∃ (s : State) (w : Word) (rest : List Transaction) (c : Instr), s.pending = .issue w :: rest ∧ s.fault = none ∧
      decodeCommand s.cfg w = some c ∧ s.vram = none) ∧
    (∃ (s : State) (w : Word) (rest : List Transaction) (n : BitVec 11) (gw : BitVec 6) (gh : BitVec 7) (pr : Profile) (v : Vram),
      s.pending = .issue w :: rest ∧ s.fault = none ∧ decodeCommand s.cfg w = some (.dtile n gw gh pr) ∧ s.vram = some v ∧
      min n.toNat (gw.toNat * gh.toNat) > 512) ∧
    (∃ (s : State) (w : Word) (rest : List Transaction) (v : Vram), s.pending = .issue w :: rest ∧ s.fault = none ∧
      decodeCommand s.cfg w = some (.ddual .gray) ∧ s.vram = some v) ∧
    (∃ (s : State) (w : Word) (rest : List Transaction) (n : BitVec 11) (gw : BitVec 6) (gh : BitVec 7) (pr : Profile) (v : Vram),
      s.pending = .issue w :: rest ∧ s.fault = none ∧ decodeCommand s.cfg w = some (.dtile n gw gh pr) ∧ s.vram = some v ∧
      min n.toNat (gw.toNat * gh.toNat) = 512) :=
  ⟨⟨{ faulted with pending := [.issue 0#32] }, _, _, rfl, by decide⟩, ⟨asked [] (.issue 0x34082008#32), _, _, rfl, by decide⟩,
    ⟨{ fresh with pending := [.issue 0x10000007#32] }, _, _, .dmap .map1 .signed .gray, rfl, by decide⟩,
    ⟨asked [] (.issue 0x31181008#32), _, _, 513#11, 32#6, 17#7, .rgba, [], rfl, by decide⟩,
    ⟨asked bufC (.issue 0x20000004#32), _, _, bufC, rfl, by decide⟩,
    asked [] (.issue 0x31081000#32), _, _, 512#11, 32#6, 16#7, .rgba, [], rfl, by decide⟩

/-- A recorded fault, with an `ISSUE`, a `RESET` and another transaction next. -/
theorem witness_FaultIsSticky :
    (∃ (s : State) (f : FaultRecord) (w : Word) (rest : List Transaction), s.fault = some f ∧ s.pending = .issue w :: rest) ∧
    (∃ (s : State) (f : FaultRecord) (rest : List Transaction), s.fault = some f ∧ s.pending = .reset :: rest) ∧
    ∃ (s t : State) (f : FaultRecord), s.fault = some f ∧ step s = .next t :=
  ⟨⟨{ faulted with pending := [.issue 0x10000000#32] }, _, _, _, rfl, rfl⟩, ⟨{ faulted with pending := [.reset] }, _, _, rfl, rfl⟩,
    { faulted with pending := [.readReg 3] }, _, _, rfl, rfl⟩

theorem witness_ResetTransaction :
    (∃ (s : State) (rest : List Transaction), s.pending = .reset :: rest ∧ s.vram ≠ none) ∧
    ∃ s t : State, s.fault ≠ none ∧ step s = .next t ∧ t.fault = none :=
  ⟨⟨asked bufC .reset, _, rfl, by decide⟩, { faulted with pending := [.reset] }, _, by decide, rfl, by decide⟩

/-- A buffer of 8192 bytes, and one a byte short. -/
theorem witness_LoadVramReplacesEveryByte :
    (∃ (s : State) (buf : List Byte) (rest : List Transaction), s.pending = .loadVram buf :: rest ∧ buf.length = 8192) ∧
    ∃ (s : State) (buf : List Byte) (rest : List Transaction), s.pending = .loadVram buf :: rest ∧ buf.length ≠ 8192 :=
  ⟨⟨asked [] (.loadVram (List.replicate 8192 0xFF#8)), _, _, rfl, List.length_replicate⟩,
    asked [] (.loadVram (List.replicate 8191 0xFF#8)), _, _, rfl, by rw [List.length_replicate]; decide⟩

theorem witness_ReadRegReturnsTheRegister :
    (∃ (s : State) (r : Nat) (rest : List Transaction), s.pending = .readReg r :: rest ∧ r = 1) ∧
    (∃ (s : State) (r : Nat) (rest : List Transaction), s.pending = .readReg r :: rest ∧ r = 2) ∧
    (∃ (s : State) (r : Nat) (rest : List Transaction), s.pending = .readReg r :: rest ∧ r = 3) ∧
    (∃ (s : State) (r : Nat) (rest : List Transaction), s.pending = .readReg r :: rest ∧ (r = 0 ∨ 3 < r) ∧ r = 0) ∧
    ∃ (s : State) (r : Nat) (rest : List Transaction), s.pending = .readReg r :: rest ∧ (r = 0 ∨ 3 < r) ∧ r = 4 :=
  ⟨⟨asked [] (.readReg 1), _, _, rfl, rfl⟩, ⟨asked [] (.readReg 2), _, _, rfl, rfl⟩, ⟨asked [] (.readReg 3), _, _, rfl, rfl⟩,
    ⟨asked [] (.readReg 0), _, _, rfl, by decide⟩, asked [] (.readReg 4), _, _, rfl, by decide⟩

theorem witness_ReadFbReturnsTheWord :
    (∃ (s : State) (i : Nat) (rest : List Transaction) (w : Word), s.pending = .readFb i :: rest ∧ i ≤ 131071 ∧
      fbWord s.fb i = some w ∧ i = 131071) ∧
    (∃ (s : State) (i : Nat) (rest : List Transaction), s.pending = .readFb i :: rest ∧ i ≤ 131071 ∧ fbWord s.fb i = none ∧
      i = 131071) ∧
    ∃ (s : State) (i : Nat) (rest : List Transaction), s.pending = .readFb i :: rest ∧ 131071 < i ∧ i = 131072 :=
  ⟨⟨{ asked [] (.readFb 131071) with fb := [(131071, 7#32)] }, _, _, 7#32, rfl, by decide⟩,
    ⟨asked [] (.readFb 131071), _, _, rfl, by decide⟩, asked [] (.readFb 131072), _, _, rfl, by decide⟩

/-- A completed pass meets the invariants. -/
theorem finished_inv (pending : List Transaction) : ({ finished with pending := pending } : State).Inv where
  vramCanonical := by intro v hv; cases hv; rfl
  fbCanonical := (by decide : fbWf finished.fb = true)
  widthLegal := (by decide : finished.outW.toNat % 8 = 0 ∧ finished.outW.toNat ≤ 256)
  heightLegal := (by decide : finished.outH.toNat % 8 = 0 ∧ finished.outH.toNat ≤ 512)
  dimsTogether := (by decide : finished.outW = 0#10 ↔ finished.outH = 0#10)
  areaHeld := (by decide : ∀ i < finished.outW.toNat * finished.outH.toNat, (fbWord finished.fb i).isSome = true)

/-- The last word of the output area of a completed pass. -/
theorem witness_OutputAreaIsReadable :
    ∃ (s : State) (i : Nat) (rest : List Transaction), s.Inv ∧ s.pending = .readFb i :: rest ∧
      i < s.outW.toNat * s.outH.toNat ∧ i = 63 :=
  ⟨{ finished with pending := [.readFb 63] }, _, _, finished_inv _, rfl, by decide⟩

/-- No fault, each of the three causes, and a reset with and without the grayscale profile. -/
theorem witness_StatusFields :
    (∃ s : State, s.fault = none) ∧ (∀ cause : Cause, ∃ (s : State) (f : FaultRecord), s.fault = some f ∧ f.cause = cause) ∧
    (∃ (s : State) (rest : List Transaction), s.pending = .reset :: rest ∧ s.cfg.hasGray = false) ∧
    ∃ (s : State) (rest : List Transaction), s.pending = .reset :: rest ∧ s.cfg.hasGray = true :=
  ⟨⟨fresh, rfl⟩, fun cause => ⟨{ fresh with fault := some ⟨cause, 0#32⟩ }, _, rfl, rfl⟩,
    ⟨{ fresh with cfg := plainCfg, pending := [.reset] }, _, rfl, rfl⟩, { fresh with pending := [.reset] }, _, rfl, rfl⟩

theorem witness_DimsAndFcmdFields : (∃ s : State, s.fault = none) ∧ ∃ (s : State) (f : FaultRecord), s.fault = some f :=
  ⟨⟨finished, rfl⟩, faulted, _, rfl⟩

theorem witness_StepKeepsMemoryAndDims : ∃ s t : State, s.Inv ∧ step s = .next t ∧ t ≠ s :=
  ⟨{ finished with pending := [.reset] }, _, finished_inv _, rfl, by decide⟩

/-- A recorded fault that is true, a step from it, and a step that records one. -/
theorem witness_StepKeepsFaultRecordTrue :
    (∃ s t : State, s.FaultRecordTrue ∧ s.fault ≠ none ∧ step s = .next t) ∧
    ∃ s t : State, s.FaultRecordTrue ∧ step s = .next t ∧ t.fault ≠ none ∧ s.fault = none :=
  ⟨⟨{ faulted with pending := [.issue 0#32] }, _,
      fun f hf => by cases hf; exact ⟨.dmap .map0 .unsigned .rgba, by decide⟩, by decide, rfl⟩,
    asked [] (.issue 0#32), (asked [] (.issue 0#32)).nextTransaction [] |>.raise .illegalCommand 0#32,
    fun f hf => (nomatch (hf : none = some f)), rfl, by decide, by decide⟩

theorem witness_ConfigurationNeverChanges : ∃ s t : State, step s = .next t ∧ t ≠ s :=
  ⟨asked [] .reset, _, rfl, by decide⟩

theorem witness_OnlyTheHostChangesVram : ∃ s t : State, step s = .next t ∧ t.vram ≠ s.vram :=
  ⟨asked [] .reset, _, rfl, by decide⟩

theorem witness_EncodeOfDecode :
    (∃ i, decode 0x10000007#32 = .ok i) ∧ (∃ i, decode 0x20000004#32 = .ok i) ∧ ∃ i, decode 0x37FFFFFC#32 = .ok i :=
  ⟨⟨_, rfl⟩, ⟨_, rfl⟩, _, rfl⟩

theorem witness_ReservedEncodingsAreIllegal :
    (0x0FFFFFFF#32).extractLsb' 28 4 = 0x0#4 ∧ 0x4 ≤ ((0x40000000#32).extractLsb' 28 4).toNat ∧
    0x4 ≤ ((0xF0000000#32).extractLsb' 28 4).toNat ∧
    ((0x18000000#32).extractLsb' 28 4 = 0x1#4 ∧ (0x18000000#32).extractLsb' 3 25 ≠ 0#25) ∧
    ((0x10000008#32).extractLsb' 28 4 = 0x1#4 ∧ (0x10000008#32).extractLsb' 3 25 ≠ 0#25) ∧
    ((0x28000000#32).extractLsb' 28 4 = 0x2#4 ∧ (0x28000000#32).extractLsb' 3 25 ≠ 0#25) ∧
    ((0x20000001#32).extractLsb' 28 4 = 0x2#4 ∧ (0x20000001#32).extractLsb' 0 2 ≠ 0#2) ∧
    ((0x38104008#32).extractLsb' 28 4 = 0x3#4 ∧ (0x38104008#32).getLsbD 27 = true) ∧
    ((0x3010400A#32).extractLsb' 28 4 = 0x3#4 ∧ (0x3010400A#32).extractLsb' 0 2 ≠ 0#2) := by decide

/-- Both profiles, the grayscale one on a block that has it. -/
theorem witness_SentinelIsAFifthColour :
    (∃ (c : Config) (pr : Profile), (pr = .gray → c.hasGray = true) ∧ pr = .gray) ∧
    (∃ (c : Config) (pr : Profile), (pr = .gray → c.hasGray = true) ∧ c.hasGray = false) ∧
    ∃ (c : Config) (w : Write), w ∈ prefill c 8 8 ∧ w.1 = 63 :=
  ⟨⟨testCfg, .gray, by decide⟩, ⟨plainCfg, .rgba, by decide⟩, testCfg, (63, 0xFF00FFFF#32), by decide⟩

/-- Each of the three faults, an `ISSUE` after a fault, a pass at the bound of the range check, and the reads with no answer. -/
theorem witness_FaultIsAFaultOutcome :
    (∃ (s : State) (w : Word) (rest : List Transaction), s.pending = .issue w :: rest ∧ s.fault ≠ none) ∧
    (∃ (s : State) (w : Word) (rest : List Transaction), s.pending = .issue w :: rest ∧ s.fault = none ∧
      decodeCommand s.cfg w = none) ∧
    (∃ (s : State) (w : Word) (rest : List Transaction) (c : Instr), s.pending = .issue w :: rest ∧ s.fault = none ∧
      decodeCommand s.cfg w = some c ∧ s.vram = none) ∧
    (∃ (s : State) (w : Word) (rest : List Transaction) (n : BitVec 11) (gw : BitVec 6) (gh : BitVec 7) (pr : Profile) (v : Vram),
      s.pending = .issue w :: rest ∧ s.fault = none ∧ decodeCommand s.cfg w = some (.dtile n gw gh pr) ∧ s.vram = some v ∧
      min n.toNat (gw.toNat * gh.toNat) > 512) ∧
    (∃ (s : State) (w : Word) (rest : List Transaction) (n : BitVec 11) (gw : BitVec 6) (gh : BitVec 7) (pr : Profile) (v : Vram),
      s.pending = .issue w :: rest ∧ s.fault = none ∧ decodeCommand s.cfg w = some (.dtile n gw gh pr) ∧ s.vram = some v ∧
      min n.toNat (gw.toNat * gh.toNat) = 512) ∧
    (∃ (s t : State) (f : FaultRecord), stepOutcome s = .fault f t) ∧
    (∃ (s : State) (r : Nat) (rest : List Transaction), s.pending = .readReg r :: rest ∧ (r = 0 ∨ 3 < r) ∧ r = 4) ∧
    (∃ (s : State) (i : Nat) (rest : List Transaction), s.pending = .readFb i :: rest ∧ i ≤ 131071 ∧ fbWord s.fb i = none ∧
      i = 131071) ∧
    ∃ (s : State) (i : Nat) (rest : List Transaction), s.pending = .readFb i :: rest ∧ 131071 < i ∧ i = 131072 :=
  ⟨⟨{ faulted with pending := [.issue 0#32] }, _, _, rfl, by decide⟩, ⟨asked [] (.issue 0x34082008#32), _, _, rfl, by decide⟩,
    ⟨{ fresh with pending := [.issue 0x10000007#32] }, _, _, .dmap .map1 .signed .gray, rfl, by decide⟩,
    ⟨asked [] (.issue 0x31181008#32), _, _, 513#11, 32#6, 17#7, .rgba, [], rfl, by decide⟩,
    ⟨asked [] (.issue 0x31081000#32), _, _, 512#11, 32#6, 16#7, .rgba, [], rfl, by decide⟩,
    ⟨asked [] (.issue 0x10000008#32), _, _, test_outcomes.1⟩, ⟨asked [] (.readReg 4), _, _, rfl, by decide⟩,
    ⟨asked [] (.readFb 131071), _, _, rfl, by decide⟩, asked [] (.readFb 131072), _, _, rfl, by decide⟩

/-- A faulted state with no `RESET` to come, a step that faults, runs that have a final state, a `RESET`, and a pass. -/
theorem witness_FaultedStateIsNeverFinal :
    (∃ (s : State) (f : FaultRecord), s.fault = some f ∧ Transaction.reset ∉ s.pending ∧ s.pending ≠ []) ∧
    (∃ (s t : State) (f : FaultRecord), stepOutcome s = .fault f t ∧ Transaction.reset ∉ t.pending) ∧
    (∃ s t : State, s.finalState = some t ∧ s ≠ t) ∧ (∃ s : State, s.pending = [.reset] ∧ s.fault ≠ none) ∧
    ∃ (s : State) (w : Word) (v : Vram), s.pending = [.issue w] ∧ s.fault = none ∧
      decodeCommand s.cfg w = some (.dtile 512#11 32#6 16#7 .rgba) ∧ s.vram = some v ∧
      min (512#11).toNat ((32#6).toNat * (16#7).toNat) ≤ 512 :=
  ⟨⟨{ faulted with pending := [.issue 0#32] }, _, rfl, by decide⟩, ⟨asked [] (.issue 0x10000008#32), _, _, test_outcomes.1, by decide⟩,
    ⟨_, _, test_outcomes.2.2.2.2, by decide⟩, ⟨{ faulted with pending := [.reset] }, rfl, by decide⟩,
    asked [] (.issue 0x31081000#32), _, [], rfl, by decide⟩

end Sys2Proof.Tests
end

/-! PROOFS. Which records of parameters are configurations (00_scope.md R8, R9; 42_palette_lut.md R142). -/

namespace Sys2Proof

/-- The constraints of R8 and R9, in the words of the spec. -/
theorem Params.valid_iff (p : Params) :
    p.valid = true ↔ p.signedBase = 0x1000 ∧ (∀ k, p.pal.get k ≠ p.sentinel) ∧
      (p.hasGray = true → ∀ k, Machine.grayWord (p.shade.get k) ≠ p.sentinel) := by
  rw [Params.valid, Bool.and_eq_true, Params.sentinelValid_iff, Params.baseValid, beq_iff_eq]

/-- Valid parameters, and no others, are those of a configuration (U4). -/
theorem Config.exists_toParams_eq_iff (p : Params) : (∃ c : Config, c.toParams = p) ↔ p.valid = true := by
  constructor
  · rintro ⟨c, rfl⟩
    exact c.valid
  · intro h
    exact ⟨{ toParams := p, valid := h }, rfl⟩

/-- Exactly the parameters of no configuration are refused (U4). -/
theorem Config.ofParams_eq_none_iff (p : Params) : Config.ofParams p = none ↔ ¬ ∃ c : Config, c.toParams = p := by
  simp only [Option.eq_none_iff_forall_ne_some, ne_eq, Config.ofParams_eq_some, not_exists]

/-- Settles O52: a configuration carries a proof of `Params.valid`, which is the conjunction of the constraints, and a refusal
is its negation, taken through the quantifiers. -/
theorem configurationsMeetTheirConstraints : Obligations.ConfigurationsMeetTheirConstraints := by
  intro p
  have hcfg := (Config.exists_toParams_eq_iff p).trans p.valid_iff
  refine ⟨hcfg, fun c => Config.ofParams_eq_some, ?_⟩
  rw [Config.ofParams_eq_none_iff, hcfg]
  simp only [not_and_or, Classical.not_imp, not_forall, ne_eq, not_not]

end Sys2Proof

/-! PROOFS. The state of the block: what a permutation of the writes of a pass leaves, the fields of the readable registers, and
the state after reset (10_state.md R24, R31 to R33, R39). -/

namespace Sys2Proof.Machine

/-! ## The order of the writes (R24) -/

/-- What a list of writes leaves at an index is the word of one of them. -/
theorem mem_of_lastWrite_eq_some {ws : List Write} {i : Nat} {x : Word} (h : lastWrite ws i = some x) : (i, x) ∈ ws := by
  induction ws with
  | nil => cases h
  | cons w ws ih =>
    obtain ⟨j, y⟩ := w
    rw [lastWrite, Option.or_eq_some_iff] at h
    rcases h with hlater | ⟨_, hfirst⟩
    · exact List.mem_cons_of_mem _ (ih hlater)
    · split_ifs at hfirst with hij
      cases hfirst
      subst hij
      exact List.mem_cons_self

/-- When no word is named twice, the writes leave at an index exactly the word they write to it. -/
theorem lastWrite_eq_some_iff_mem {ws : List Write} (hn : (ws.map Prod.fst).Nodup) {i : Nat} {x : Word} :
    lastWrite ws i = some x ↔ (i, x) ∈ ws := by
  refine ⟨mem_of_lastWrite_eq_some, fun hmem => lastWrite_eq_some ⟨_, hmem, rfl⟩ fun w hw hi => ?_⟩
  have hsame : w = (i, x) := List.inj_on_of_nodup_map hn hw hmem hi
  rw [hsame]

/-- Writes that name no word twice leave the same words in every order. -/
theorem lastWrite_perm {ws ws' : List Write} (hn : (ws.map Prod.fst).Nodup) (hp : ws.Perm ws') :
    lastWrite ws = lastWrite ws' := by
  have hn' : (ws'.map Prod.fst).Nodup := (hp.map Prod.fst).nodup_iff.1 hn
  funext i
  ext x
  rw [lastWrite_eq_some_iff_mem hn, lastWrite_eq_some_iff_mem hn', hp.mem_iff]

/-- Two lists of writes inside the framebuffer that leave the same words leave the same canonical framebuffer. -/
theorem memWrites_eq_of_lastWrite_eq {fb : Fb} {ws ws' : List Write} (hf : fbWf fb = true) (hr : ∀ w ∈ ws, w.1 < 131072)
    (hr' : ∀ w ∈ ws', w.1 < 131072) (h : lastWrite ws = lastWrite ws') : memWrites fb ws = memWrites fb ws' := by
  obtain ⟨fb₁, h₁, hread₁, hwf₁⟩ := memWrites_ok fb hr
  obtain ⟨fb₂, h₂, hread₂, hwf₂⟩ := memWrites_ok fb hr'
  have hfb : fb₁ = fb₂ := cells_ext (hwf₁ hf) (hwf₂ hf) fun i => (hread₁ i).trans (h ▸ (hread₂ i).symm)
  rw [h₁, h₂, hfb]

/-- Settles O13: the two lists leave the same words, as at most one write names each, and a canonical framebuffer is determined
by its words. -/
theorem walkOrderIsNotObservable : Obligations.WalkOrderIsNotObservable := by
  intro fb ws ws' hf hr hn hp
  exact memWrites_eq_of_lastWrite_eq hf hr (fun w hw => hr w (hp.mem_iff.2 hw)) (lastWrite_perm hn hp)

/-! ## The fields of `STATUS` (R31): a field is read by passing over the fields below it -/

/-- Bits 0 to 3 of `STATUS`: `FAULT`, `LOADED`, `HASGRAY` and a reserved bit. -/
theorem State.status_flags (s : State) :
    s.status.getLsbD 0 = s.fault.isSome ∧ s.status.getLsbD 1 = s.vram.isSome ∧ s.status.getLsbD 2 = s.cfg.hasGray ∧
      s.status.getLsbD 3 = false := by
  simp only [State.status, BitVec.getLsbD_append]
  simp

/-- Bits 7:4 of `STATUS`: `CAUSE`. -/
theorem State.status_cause (s : State) : s.status.extractLsb' 4 4 = s.causeField := by
  rw [State.status]
  iterate 4 rw [BitVec.extractLsb'_append_eq_of_le (by decide)]
  exact BitVec.extractLsb'_append_eq_right

/-- Bits 31:8 of `STATUS` are reserved. -/
theorem State.status_reserved (s : State) : s.status.extractLsb' 8 24 = 0#24 := by
  rw [State.status]
  iterate 5 rw [BitVec.extractLsb'_append_eq_of_le (by decide)]
  exact BitVec.extractLsb'_eq_self

/-- With no fault recorded `CAUSE` reads 0. -/
theorem State.causeField_of_none {s : State} (h : s.fault = none) : s.causeField = 0#4 := by
  rw [State.causeField, h]

/-- With a fault recorded `CAUSE` reads the code of its cause (R175). -/
theorem State.causeField_of_some {s : State} {f : FaultRecord} (h : s.fault = some f) : s.causeField = f.cause.code := by
  rw [State.causeField, h]

/-! ## The fields of `DIMS` and the word of `FCMD` (R32, R33) -/

/-- Bits 9:0 of `DIMS`: `OUT_W`. -/
theorem State.dims_outW (s : State) : s.dims.extractLsb' 0 10 = s.outW := BitVec.extractLsb'_append_eq_right

/-- Bits 25:16 of `DIMS`: `OUT_H`. -/
theorem State.dims_outH (s : State) : s.dims.extractLsb' 16 10 = s.outH := by
  rw [State.dims]
  iterate 2 rw [BitVec.extractLsb'_append_eq_of_le (by decide)]
  exact BitVec.extractLsb'_append_eq_right

/-- Bits 15:10 and 31:26 of `DIMS` are reserved. -/
theorem State.dims_reserved (s : State) : s.dims.extractLsb' 10 6 = 0#6 ∧ s.dims.extractLsb' 26 6 = 0#6 := by
  rw [State.dims]
  constructor
  · rw [BitVec.extractLsb'_append_eq_of_le (by decide)]
    exact BitVec.extractLsb'_append_eq_right
  · iterate 3 rw [BitVec.extractLsb'_append_eq_of_le (by decide)]
    exact BitVec.extractLsb'_eq_self

/-- With no fault recorded `FCMD` reads 0. -/
theorem State.fcmd_of_none {s : State} (h : s.fault = none) : s.fcmd = 0#32 := by
  rw [State.fcmd, h]

/-- With a fault recorded `FCMD` reads the word that faulted. -/
theorem State.fcmd_of_some {s : State} {f : FaultRecord} (h : s.fault = some f) : s.fcmd = f.cmd := by
  rw [State.fcmd, h]

/-- Settles O38: each field of the register's layout, and both cases of the fault record. -/
theorem dimsAndFcmdFields : Obligations.DimsAndFcmdFields := by
  intro s
  obtain ⟨hlow, hhigh⟩ := s.dims_reserved
  exact ⟨s.dims_outW, hlow, s.dims_outH, hhigh, State.fcmd_of_none, fun _ => State.fcmd_of_some⟩

/-! ## The registers and the invariants after reset (R39) -/

/-- `STATUS` of a block that is reset shows `HASGRAY` alone. -/
theorem State.status_of_reset {s : State} (h : s.toBlock = Block.reset) :
    s.status = if s.cfg.hasGray then 0x00000004#32 else 0x00000000#32 := by
  cases hg : s.cfg.hasGray <;> simp [State.status, State.causeField, h, hg]

/-- `DIMS` of a block that is reset reads 0. -/
theorem State.dims_of_reset {s : State} (h : s.toBlock = Block.reset) : s.dims = 0#32 := by
  simp [State.dims, h]

/-- A `RESET` transaction resets the block, and the host goes on. -/
theorem step_reset {s : State} {rest : List Transaction} (h : s.pending = .reset :: rest) :
    step s = .next (s.nextTransaction rest).resetBlock := by
  simp only [step, hostStep, h, perform]

/-- Settles O37: the fields of the register's layout with both cases of the fault record, and `STATUS` of the reset block. -/
theorem statusFields : Obligations.StatusFields := by
  constructor
  · intro s
    obtain ⟨hfault, hloaded, hgray, hreserved⟩ := s.status_flags
    refine ⟨hfault, hloaded, hgray, hreserved, s.status_reserved, fun h => ?_, fun f h => ?_⟩
    · rw [s.status_cause, State.causeField_of_none h]
    · rw [s.status_cause, State.causeField_of_some h]
      cases f.cause <;> rfl
  · intro s rest h
    have hstatus := State.status_of_reset (s.nextTransaction rest).resetBlock_toBlock
    rw [State.resetBlock_cfg, State.nextTransaction_cfg] at hstatus
    exact ⟨_, step_reset h, fun hg => by simpa [hg] using hstatus, fun hg => by simpa [hg] using hstatus⟩

/-- Settles O32: the fields as `State.reset` sets them, and the registers of a block that is reset. -/
theorem resetState : Obligations.ResetState :=
  ⟨rfl, fun _ => rfl, rfl, rfl, rfl, State.dims_of_reset rfl, State.fcmd_of_none rfl, State.status_of_reset rfl, rfl,
    rfl, rfl⟩

/-- After reset both memories are canonical, both sizes are 0 and no word of the empty output area has to hold a value. -/
theorem State.reset_inv : State.reset.Inv where
  vramCanonical _ h := nomatch (h : none = some _)
  fbCanonical := rfl
  widthLegal := by decide
  heightLegal := by decide
  dimsTogether := iff_of_true rfl rfl
  areaHeld i h := absurd (h : i < 0) (Nat.not_lt_zero i)

/-- A state with no fault recorded has no record to be true. -/
theorem State.faultRecordTrue_of_none {s : State} (h : s.fault = none) : s.FaultRecordTrue := by
  intro f hf
  rw [h] at hf
  cases hf

/-- Settles O41: the memories and `DIMS` of the reset state, and no fault record. -/
theorem resetMeetsTheInvariants : Obligations.ResetMeetsTheInvariants :=
  ⟨State.reset_inv, State.faultRecordTrue_of_none rfl⟩

end Sys2Proof.Machine

/-! PROOFS. The two memories: where `MemRead` and `MemWrite` are defined and what a write leaves, and which transactions change
VRAM (20_memory.md R50, R51, R53, R56). -/

namespace Sys2Proof.Machine

/-! ## `MemRead` (R53) -/

/-- Outside VRAM `MemRead` is the model's own stop, with the offset as it was given (log 11). -/
theorem memRead_error {v : Vram} {a : Int} (h : a < 0 ∨ 8192 ≤ a) : memRead v a = .error (.vramReadOutOfRange a) := by
  cases a with
  | ofNat n =>
    rw [Int.ofNat_eq_natCast] at h
    exact if_neg (by simp only [Config.vramSize]; omega)
  | negSucc k => rfl

/-- Settles O10: inside VRAM the byte there, outside the model's own stop. -/
theorem vramReadIsBoundsChecked : Obligations.VramReadIsBoundsChecked := fun _ _ =>
  ⟨fun h0 h1 => ⟨_, memRead_ok h0 (by omega)⟩, fun h => memRead_error (by omega)⟩

/-! ## `MemWrite` (R56) -/

/-- Inside the framebuffer `MemWrite` puts the word in its place. -/
theorem memWrite_ok {fb : Fb} {i : Nat} {w : Word} (h : i < 131072) : memWrite fb (i, w) = .ok (putCell fb i w) :=
  if_pos h

/-- Outside the framebuffer `MemWrite` is the model's own stop, with the index as it was given (log 11). -/
theorem memWrite_error {fb : Fb} {i : Nat} {w : Word} (h : 131072 ≤ i) :
    memWrite fb (i, w) = .error (.fbWriteOutOfRange i) :=
  if_neg (Nat.not_lt.2 h)

/-- The word that was put at an index is read there. -/
theorem fbWord_putCell_self (fb : Fb) (i : Nat) (w : Word) : fbWord (putCell fb i w) i = some w := by
  rw [fbWord, cellAt_putCell, if_pos rfl]

/-- A word put at another index leaves this one as it was. -/
theorem fbWord_putCell_of_ne (fb : Fb) {i j : Nat} (w : Word) (h : j ≠ i) : fbWord (putCell fb i w) j = fbWord fb j := by
  rw [fbWord, cellAt_putCell, if_neg h, fbWord]

/-- Settles O11: the write puts one cell, which changes no other read and keeps the canonical form. -/
theorem fbWriteChangesOneWord : Obligations.FbWriteChangesOneWord := by
  intro fb i w
  constructor
  · intro hi
    have hok : memWrite fb (i, w) = .ok (putCell fb i w) := memWrite_ok (by omega)
    exact ⟨_, hok, fbWord_putCell_self fb i w, fun j hj => fbWord_putCell_of_ne fb w hj, fun hf => fbWf_memWrite hf hok⟩
  · intro hi
    exact memWrite_error (by omega)

/-! ## Who changes VRAM (R50, R51) -/

/-- Everything a word with the shape of no command can do: nothing after a fault, else record one (R178, R179). -/
theorem rejectWord_cases (w : Word) (s : State) :
    (s.fault ≠ none ∧ rejectWord w s = .next s) ∨
      (s.fault = none ∧ rejectWord w s = .next (s.raise .illegalCommand w)) := by
  unfold rejectWord
  cases hf : s.fault with
  | none => exact .inr ⟨rfl, rfl⟩
  | some f => exact .inl ⟨nofun, rfl⟩

/-- A rejected word leaves VRAM alone. -/
theorem rejectWord_vram {w : Word} {s t : State} (h : rejectWord w s = .next t) : t.vram = s.vram := by
  rcases rejectWord_cases w s with ⟨-, he⟩ | ⟨-, he⟩
  · cases he.symm.trans h
    rfl
  · cases he.symm.trans h
    exact State.raise_vram s _ _

/-- A command leaves VRAM alone, whether it is ignored, faults or completes its pass (R51). -/
theorem exec_vram {i : Instr} {s t : State} (h : exec i s = .next t) : t.vram = s.vram := by
  rcases exec_cases i s with ⟨-, he⟩ | ⟨-, cause, he⟩ | ⟨-, -, -, -, fb, he, -⟩
  · cases he.symm.trans h
    rfl
  · cases he.symm.trans h
    exact State.raise_vram s _ _
  · cases he.symm.trans h
    exact State.completePass_vram s _ _ _

/-- Settles O43: of the things a step can do, only `RESET` and `LOAD_VRAM` write VRAM. -/
theorem onlyTheHostChangesVram : Obligations.OnlyTheHostChangesVram := by
  intro s t hstep hne
  rcases step_cases hstep with ⟨-, rfl⟩ | ⟨rest, ⟨hp, -⟩ | ⟨buf, hp, -⟩ | ⟨_, _, -, -, hreject⟩ | ⟨_, _, -, -, hexec⟩ |
    ⟨_, _, -, -, rfl⟩ | ⟨_, _, -, -, -, rfl⟩⟩
  · exact absurd rfl hne
  · exact ⟨rest, .inl hp⟩
  · exact ⟨rest, .inr ⟨buf, hp⟩⟩
  · exact absurd (rejectWord_vram hreject) hne
  · exact absurd (exec_vram hexec) hne
  · exact absurd (State.answer_vram _ _) hne
  · exact absurd (State.answer_vram _ _) hne

end Sys2Proof.Machine

/-! PROOFS. The command encoding (30_encoding.md R80 to R89, R93): the fields of a word in each of the three formats, what the
decoder answers for each opcode, the decoder and the encoder as inverses of each other, and the opcode map. -/

namespace Sys2Proof

/-! ## The fields of a word (R82, R84) -/

/-- A slice of a word is an append exactly when its upper part and its lower part are the parts appended. -/
theorem extractLsb'_eq_append_iff {k m n : Nat} {x : BitVec k} {s : Nat} {a : BitVec m} {b : BitVec n} :
    x.extractLsb' s (m + n) = a ++ b ↔ x.extractLsb' (s + n) m = a ∧ x.extractLsb' s n = b := by
  rw [← BitVec.extractLsb'_append_extractLsb'_eq_extractLsb' (x := x) (start₂ := s + n) rfl]
  constructor
  · intro h
    have hhigh := congrArg (BitVec.extractLsb' n m) h
    have hlow := congrArg (BitVec.extractLsb' 0 n) h
    rw [BitVec.extractLsb'_append_eq_left, BitVec.extractLsb'_append_eq_left] at hhigh
    rw [BitVec.extractLsb'_append_eq_right, BitVec.extractLsb'_append_eq_right] at hlow
    exact ⟨hhigh, hlow⟩
  · rintro ⟨rfl, rfl⟩
    rfl

/-- A word is an append exactly when its upper part and its lower part are the parts appended. -/
theorem eq_append_iff {m n : Nat} {x : BitVec (m + n)} {a : BitVec m} {b : BitVec n} :
    x = a ++ b ↔ x.extractLsb' n m = a ∧ x.extractLsb' 0 n = b := by
  have h := extractLsb'_eq_append_iff (x := x) (s := 0) (a := a) (b := b)
  rwa [BitVec.extractLsb'_eq_self, Nat.zero_add] at h

/-- Format M, field by field from bit 31 down. -/
theorem eq_formatM_iff {w : Word} {op : BitVec 4} {res : BitVec 25} {p s m : BitVec 1} :
    w = op ++ res ++ p ++ s ++ m ↔ w.extractLsb' 28 4 = op ∧ w.extractLsb' 3 25 = res ∧ w.extractLsb' 2 1 = p ∧
      w.extractLsb' 1 1 = s ∧ w.extractLsb' 0 1 = m := by
  refine (eq_append_iff (m := 4 + 25 + 1 + 1) (n := 1)).trans ?_
  simp only [extractLsb'_eq_append_iff, and_assoc]

/-- Format U, field by field from bit 31 down. -/
theorem eq_formatU_iff {w : Word} {op : BitVec 4} {res : BitVec 25} {p : BitVec 1} {low : BitVec 2} :
    w = op ++ res ++ p ++ low ↔ w.extractLsb' 28 4 = op ∧ w.extractLsb' 3 25 = res ∧ w.extractLsb' 2 1 = p ∧
      w.extractLsb' 0 2 = low := by
  refine (eq_append_iff (m := 4 + 25 + 1) (n := 2)).trans ?_
  simp only [extractLsb'_eq_append_iff, and_assoc]

/-- Format T, field by field from bit 31 down. -/
theorem eq_formatT_iff {w : Word} {op : BitVec 4} {res : BitVec 1} {gh : BitVec 7} {gw : BitVec 6} {n : BitVec 11}
    {p : BitVec 1} {low : BitVec 2} :
    w = op ++ res ++ gh ++ gw ++ n ++ p ++ low ↔ w.extractLsb' 28 4 = op ∧ w.extractLsb' 27 1 = res ∧
      w.extractLsb' 20 7 = gh ∧ w.extractLsb' 14 6 = gw ∧ w.extractLsb' 3 11 = n ∧ w.extractLsb' 2 1 = p ∧
      w.extractLsb' 0 2 = low := by
  refine (eq_append_iff (m := 4 + 1 + 7 + 6 + 11 + 1) (n := 2)).trans ?_
  simp only [extractLsb'_eq_append_iff, and_assoc]

/-! ## One-bit fields -/

/-- The tilemap read from a bit is the one whose bit it is. -/
theorem MapSelect.ofBit_eq_iff {w : Word} {k : Nat} {ms : MapSelect} :
    MapSelect.ofBit (w.getLsbD k) = ms ↔ w.extractLsb' k 1 = ms.bit := by
  rw [BitVec.getLsbD_eq_extractLsb']
  generalize w.extractLsb' k 1 = b
  cases ms <;> revert b <;> decide

/-- The interpretation read from a bit is the one whose bit it is. -/
theorem Addressing.ofBit_eq_iff {w : Word} {k : Nat} {sg : Addressing} :
    Addressing.ofBit (w.getLsbD k) = sg ↔ w.extractLsb' k 1 = sg.bit := by
  rw [BitVec.getLsbD_eq_extractLsb']
  generalize w.extractLsb' k 1 = b
  cases sg <;> revert b <;> decide

/-- The profile read from a bit is the one whose bit it is. -/
theorem Profile.ofBit_eq_iff {w : Word} {k : Nat} {pr : Profile} :
    Profile.ofBit (w.getLsbD k) = pr ↔ w.extractLsb' k 1 = pr.bit := by
  rw [BitVec.getLsbD_eq_extractLsb']
  generalize w.extractLsb' k 1 = b
  cases pr <;> revert b <;> decide

/-- A reserved bit is set exactly when its one-bit field is not 0. -/
theorem getLsbD_eq_true_iff_extractLsb'_ne_zero {w : Word} {k : Nat} :
    w.getLsbD k = true ↔ w.extractLsb' k 1 ≠ 0#1 := by
  rw [BitVec.getLsbD_eq_extractLsb']
  generalize w.extractLsb' k 1 = b
  revert b
  decide

/-! ## The commands that the three formats read from a word (R84) -/

/-- The `DMAP` whose fields format M reads from the word. -/
def readDmap (w : Word) : Instr :=
  .dmap (MapSelect.ofBit (w.getLsbD 0)) (Addressing.ofBit (w.getLsbD 1)) (Profile.ofBit (w.getLsbD 2))

/-- The `DDUAL` whose field format U reads from the word. -/
def readDdual (w : Word) : Instr := .ddual (Profile.ofBit (w.getLsbD 2))

/-- The `DTILE` whose fields format T reads from the word. -/
def readDtile (w : Word) : Instr :=
  .dtile (w.extractLsb' 3 11) (w.extractLsb' 14 6) (w.extractLsb' 20 7) (Profile.ofBit (w.getLsbD 2))

/-- A word encodes a `DMAP` exactly when it has the shape of one and that `DMAP` is read from it. -/
theorem eq_encode_dmap_iff {w : Word} {ms : MapSelect} {sg : Addressing} {pr : Profile} :
    w = encode (.dmap ms sg pr) ↔
      w.extractLsb' 28 4 = 0x1#4 ∧ w.extractLsb' 3 25 = 0#25 ∧ readDmap w = .dmap ms sg pr := by
  rw [encode, eq_formatM_iff, readDmap, Instr.dmap.injEq, MapSelect.ofBit_eq_iff, Addressing.ofBit_eq_iff,
    Profile.ofBit_eq_iff]
  tauto

/-- A word encodes a `DDUAL` exactly when it has the shape of one and that `DDUAL` is read from it. -/
theorem eq_encode_ddual_iff {w : Word} {pr : Profile} :
    w = encode (.ddual pr) ↔
      w.extractLsb' 28 4 = 0x2#4 ∧ (w.extractLsb' 3 25 = 0#25 ∧ w.extractLsb' 0 2 = 0#2) ∧ readDdual w = .ddual pr := by
  rw [encode, eq_formatU_iff, readDdual, Instr.ddual.injEq, Profile.ofBit_eq_iff]
  tauto

/-- A word encodes a `DTILE` exactly when it has the shape of one and that `DTILE` is read from it. -/
theorem eq_encode_dtile_iff {w : Word} {n : BitVec 11} {gw : BitVec 6} {gh : BitVec 7} {pr : Profile} :
    w = encode (.dtile n gw gh pr) ↔
      w.extractLsb' 28 4 = 0x3#4 ∧ (w.extractLsb' 27 1 = 0#1 ∧ w.extractLsb' 0 2 = 0#2) ∧
        readDtile w = .dtile n gw gh pr := by
  rw [encode, eq_formatT_iff, readDtile, Instr.dtile.injEq, Profile.ofBit_eq_iff]
  tauto

/-! ## What the decoder answers, opcode by opcode (R86) -/

/-- `OP` is one of the three defined opcodes or a reserved one. -/
theorem opcode_cases (op : BitVec 4) : op = 0x1#4 ∨ op = 0x2#4 ∨ op = 0x3#4 ∨ op = 0x0#4 ∨ 0x4 ≤ op.toNat := by
  revert op
  decide

/-- A reserved opcode is none of the defined ones. -/
theorem toNat_ne_of_reserved {op : BitVec 4} (h : op = 0x0#4 ∨ 0x4 ≤ op.toNat) :
    op.toNat ≠ 1 ∧ op.toNat ≠ 2 ∧ op.toNat ≠ 3 := by
  revert op
  decide

theorem decode_of_op_dmap {w : Word} (h : w.extractLsb' 28 4 = 0x1#4) :
    decode w = if w.extractLsb' 3 25 = 0#25 then .ok (readDmap w) else .error (.reservedBits 0x1#4) := by
  simp only [decode, BitVec.extractLsb, h, if_true]
  rfl

theorem decode_of_op_ddual {w : Word} (h : w.extractLsb' 28 4 = 0x2#4) :
    decode w = if w.extractLsb' 3 25 = 0#25 ∧ w.extractLsb' 0 2 = 0#2 then .ok (readDdual w)
      else .error (.reservedBits 0x2#4) := by
  simp only [decode, BitVec.extractLsb, h]
  rfl

theorem decode_of_op_dtile {w : Word} (h : w.extractLsb' 28 4 = 0x3#4) :
    decode w = if w.extractLsb' 27 1 = 0#1 ∧ w.extractLsb' 0 2 = 0#2 then .ok (readDtile w)
      else .error (.reservedBits 0x3#4) := by
  simp only [decode, BitVec.extractLsb, h]
  rfl

theorem decode_of_op_reserved {w : Word} (h : w.extractLsb' 28 4 = 0x0#4 ∨ 0x4 ≤ (w.extractLsb' 28 4).toNat) :
    decode w = .error (.reservedOpcode (w.extractLsb' 28 4)) := by
  obtain ⟨hn1, hn2, hn3⟩ := toNat_ne_of_reserved h
  have hop1 : w.extractLsb' 28 4 ≠ 0x1#4 := ne_of_apply_ne BitVec.toNat hn1
  have hop2 : w.extractLsb' 28 4 ≠ 0x2#4 := ne_of_apply_ne BitVec.toNat hn2
  have hop3 : w.extractLsb' 28 4 ≠ 0x3#4 := ne_of_apply_ne BitVec.toNat hn3
  simp only [decode, BitVec.extractLsb, hop1, hop2, hop3, if_false]

/-! ## The decoder and the encoder are inverses of each other -/

/-- Settles O45: the fields of the encoding are those the decoder tests and reads. -/
theorem decodeOfEncode : Obligations.DecodeOfEncode := by
  intro i
  cases i with
  | dmap ms sg pr =>
    obtain ⟨hop, hres, hread⟩ := eq_encode_dmap_iff.1 (rfl : encode (.dmap ms sg pr) = _)
    rw [decode_of_op_dmap hop, if_pos hres, hread]
  | ddual pr =>
    obtain ⟨hop, hres, hread⟩ := eq_encode_ddual_iff.1 (rfl : encode (.ddual pr) = _)
    rw [decode_of_op_ddual hop, if_pos hres, hread]
  | dtile n gw gh pr =>
    obtain ⟨hop, hres, hread⟩ := eq_encode_dtile_iff.1 (rfl : encode (.dtile n gw gh pr) = _)
    rw [decode_of_op_dtile hop, if_pos hres, hread]

/-- Settles O46: for each opcode the tests the word has passed and the fields read from it are all its bits. -/
theorem encodeOfDecode : Obligations.EncodeOfDecode := by
  intro w i h
  rcases opcode_cases (w.extractLsb' 28 4) with hop | hop | hop | hop
  · rw [decode_of_op_dmap hop] at h
    split_ifs at h with hres
    cases h
    exact (eq_encode_dmap_iff.2 ⟨hop, hres, rfl⟩).symm
  · rw [decode_of_op_ddual hop] at h
    split_ifs at h with hres
    cases h
    exact (eq_encode_ddual_iff.2 ⟨hop, hres, rfl⟩).symm
  · rw [decode_of_op_dtile hop] at h
    split_ifs at h with hres
    cases h
    exact (eq_encode_dtile_iff.2 ⟨hop, hres, rfl⟩).symm
  · rw [decode_of_op_reserved hop] at h
    cases h

/-- A word decodes to a command exactly when it is the command's encoding. -/
theorem decode_eq_ok_iff {w : Word} {i : Instr} : decode w = .ok i ↔ w = encode i :=
  ⟨fun h => (encodeOfDecode w i h).symm, fun h => h ▸ decodeOfEncode i⟩

/-- Settles O50: the encodings of the listed commands are evaluated, and the decoder gives each command back. -/
theorem exampleWordsDecode : Obligations.ExampleWordsDecode := by
  intro p hp
  have hencode : encode p.2 = p.1 := by
    revert p
    decide
  exact ⟨decode_eq_ok_iff.2 hencode.symm, hencode⟩

/-! ## The opcode map (R86): a mask keeps some fields of the format whole and clears the others -/

theorem and_dmapMask_eq_iff {w : Word} :
    w &&& 0xFFFFFFF8#32 = 0x10000000#32 ↔ w.extractLsb' 28 4 = 0x1#4 ∧ w.extractLsb' 3 25 = 0#25 := by
  have hmatch : 0x10000000#32 = 0x1#4 ++ 0#25 ++ 0#1 ++ 0#1 ++ 0#1 := by decide
  have hmask : 0xFFFFFFF8#32 = BitVec.allOnes 4 ++ BitVec.allOnes 25 ++ 0#1 ++ 0#1 ++ 0#1 := by decide
  rw [hmatch, eq_formatM_iff]
  simp only [BitVec.extractLsb'_and, eq_formatM_iff.1 hmask, BitVec.and_allOnes, BitVec.and_zero, and_true]

theorem and_ddualMask_eq_iff {w : Word} :
    w &&& 0xFFFFFFFB#32 = 0x20000000#32 ↔
      w.extractLsb' 28 4 = 0x2#4 ∧ w.extractLsb' 3 25 = 0#25 ∧ w.extractLsb' 0 2 = 0#2 := by
  have hmatch : 0x20000000#32 = 0x2#4 ++ 0#25 ++ 0#1 ++ 0#2 := by decide
  have hmask : 0xFFFFFFFB#32 = BitVec.allOnes 4 ++ BitVec.allOnes 25 ++ 0#1 ++ BitVec.allOnes 2 := by decide
  rw [hmatch, eq_formatU_iff]
  simp only [BitVec.extractLsb'_and, eq_formatU_iff.1 hmask, BitVec.and_allOnes, BitVec.and_zero, true_and]

theorem and_dtileMask_eq_iff {w : Word} :
    w &&& 0xF8000003#32 = 0x30000000#32 ↔
      w.extractLsb' 28 4 = 0x3#4 ∧ w.extractLsb' 27 1 = 0#1 ∧ w.extractLsb' 0 2 = 0#2 := by
  have hmatch : 0x30000000#32 = 0x3#4 ++ 0#1 ++ 0#7 ++ 0#6 ++ 0#11 ++ 0#1 ++ 0#2 := by decide
  have hmask : 0xF8000003#32 =
      BitVec.allOnes 4 ++ BitVec.allOnes 1 ++ 0#7 ++ 0#6 ++ 0#11 ++ 0#1 ++ BitVec.allOnes 2 := by decide
  rw [hmatch, eq_formatT_iff]
  simp only [BitVec.extractLsb'_and, eq_formatT_iff.1 hmask, BitVec.and_allOnes, BitVec.and_zero, true_and]

/-- Settles O47: for each format, the mask and the decoder test the same fields and the remaining bits are free. -/
theorem shapeIsMaskAndMatch : Obligations.ShapeIsMaskAndMatch := by
  intro w
  simp only [decode_eq_ok_iff]
  refine ⟨?_, ?_, ?_⟩
  · simp only [and_dmapMask_eq_iff, eq_encode_dmap_iff]
    exact ⟨fun ⟨hop, hres⟩ => ⟨_, _, _, hop, hres, rfl⟩, fun ⟨_, _, _, hop, hres, _⟩ => ⟨hop, hres⟩⟩
  · simp only [and_ddualMask_eq_iff, eq_encode_ddual_iff]
    exact ⟨fun ⟨hop, hres⟩ => ⟨_, hop, hres, rfl⟩, fun ⟨_, hop, hres, _⟩ => ⟨hop, hres⟩⟩
  · simp only [and_dtileMask_eq_iff, eq_encode_dtile_iff]
    exact ⟨fun ⟨hop, hres⟩ => ⟨_, _, _, _, hop, hres, rfl⟩, fun ⟨_, _, _, _, hop, hres, _⟩ => ⟨hop, hres⟩⟩

/-! ## The decode of the spec, opcode by opcode (R89) -/

/-- The test of `PR` that the decode makes first is R87 (a). -/
theorem profileTest_iff (c : Config) (b : Bool) :
    (b = true ∧ c.hasGray = false) ↔ ¬ profileLegal c (Profile.ofBit b) = true := by
  cases b <;> cases h : c.hasGray <;> simp [Profile.ofBit, profileLegal, h]

/-- The tests of the fields that the decode makes of a `DTILE`, with that of `PR`, are R87. -/
theorem dtileTests_iff (c : Config) (n : BitVec 11) (gw : BitVec 6) (gh : BitVec 7) (pr : Profile) :
    legal c (.dtile n gw gh pr) = true ↔ profileLegal c pr = true ∧ ¬(gw.toNat < 1 ∨ gw.toNat > 32) ∧
      ¬(gh.toNat < 1 ∨ gh.toNat > 64) ∧ ¬ n.toNat > 1024 := by
  simp only [legal, gridWidthLegal, gridHeightLegal, tileCountLegal, Bool.and_eq_true, decide_eq_true_eq,
    not_or, not_lt, gt_iff_lt, and_assoc]

theorem decodeCommand_eq_some_iff_of_op_dmap {c : Config} {w : Word} {i : Instr} (h : w.extractLsb' 28 4 = 0x1#4) :
    decodeCommand c w = some i ↔ w.extractLsb' 3 25 = 0#25 ∧ legal c (readDmap w) = true ∧ readDmap w = i := by
  have hop : (w.extractLsb 31 28).toNat = 1 := congrArg BitVec.toNat h
  simp only [decodeCommand, hop, Nat.reduceEqDiff, reduceIte, profileTest_iff, Option.ite_none_left_eq_some,
    Option.some.injEq, ne_eq, not_not]
  exact and_left_comm

theorem decodeCommand_eq_some_iff_of_op_ddual {c : Config} {w : Word} {i : Instr} (h : w.extractLsb' 28 4 = 0x2#4) :
    decodeCommand c w = some i ↔
      (w.extractLsb' 3 25 = 0#25 ∧ w.extractLsb' 0 2 = 0#2) ∧ legal c (readDdual w) = true ∧ readDdual w = i := by
  have hop : (w.extractLsb 31 28).toNat = 2 := congrArg BitVec.toNat h
  simp only [decodeCommand, hop, Nat.reduceEqDiff, reduceIte, profileTest_iff, Option.ite_none_left_eq_some,
    Option.some.injEq, ne_eq, not_not, not_or]
  exact and_left_comm

theorem decodeCommand_eq_some_iff_of_op_dtile {c : Config} {w : Word} {i : Instr} (h : w.extractLsb' 28 4 = 0x3#4) :
    decodeCommand c w = some i ↔
      (w.extractLsb' 27 1 = 0#1 ∧ w.extractLsb' 0 2 = 0#2) ∧ legal c (readDtile w) = true ∧ readDtile w = i := by
  have hop : (w.extractLsb 31 28).toNat = 3 := congrArg BitVec.toNat h
  rw [readDtile, dtileTests_iff]
  simp only [decodeCommand, hop, Nat.reduceEqDiff, reduceIte, profileTest_iff, Option.ite_none_left_eq_some,
    Option.some.injEq, getLsbD_eq_true_iff_extractLsb'_ne_zero (k := 27), ne_eq, not_not, not_or]
  simp only [BitVec.extractLsb]
  tauto

theorem decodeCommand_of_op_reserved {c : Config} {w : Word}
    (h : w.extractLsb' 28 4 = 0x0#4 ∨ 0x4 ≤ (w.extractLsb' 28 4).toNat) : decodeCommand c w = none := by
  obtain ⟨hn1, hn2, hn3⟩ := toNat_ne_of_reserved h
  have hop1 : (w.extractLsb 31 28).toNat ≠ 1 := hn1
  have hop2 : (w.extractLsb 31 28).toNat ≠ 2 := hn2
  have hop3 : (w.extractLsb 31 28).toNat ≠ 3 := hn3
  simp only [decodeCommand, hop1, hop2, hop3, if_false, ite_self]

/-- The shape of a word and the legality of the fields read from it, both tested before the command is answered or one after
the other. -/
theorem ite_ok_and_wellFormed_iff {c : Config} {i j : Instr} {e : DecodeError} {shape : Prop} [Decidable shape] :
    (if shape then Except.ok j else .error e) = Except.ok i ∧ i.WellFormed c ↔ shape ∧ legal c j = true ∧ j = i := by
  split_ifs with hshape
  · simp only [Except.ok.injEq, hshape, true_and]
    constructor
    · rintro ⟨rfl, hlegal⟩
      exact ⟨hlegal, rfl⟩
    · rintro ⟨hlegal, rfl⟩
      exact ⟨rfl, hlegal⟩
  · simp [hshape]

/-- Settles O48: for each opcode both decoders test the same reserved bits and read the same command; a reserved opcode has
none. -/
theorem decodeCommandIsShapeAndLegality : Obligations.DecodeCommandIsShapeAndLegality := by
  intro c w i
  rcases opcode_cases (w.extractLsb' 28 4) with hop | hop | hop | hop
  · rw [decode_of_op_dmap hop, decodeCommand_eq_some_iff_of_op_dmap hop, ite_ok_and_wellFormed_iff]
  · rw [decode_of_op_ddual hop, decodeCommand_eq_some_iff_of_op_ddual hop, ite_ok_and_wellFormed_iff]
  · rw [decode_of_op_dtile hop, decodeCommand_eq_some_iff_of_op_dtile hop, ite_ok_and_wellFormed_iff]
  · rw [decode_of_op_reserved hop, decodeCommand_of_op_reserved hop]
    simp

/-- A word with the shape of no command is illegal on every configuration. -/
theorem decodeCommand_eq_none_of_decode_eq_error {c : Config} {w : Word} {e : DecodeError} (h : decode w = .error e) :
    decodeCommand c w = none := by
  refine Option.eq_none_iff_forall_ne_some.2 fun i hi => ?_
  obtain ⟨hshape, -⟩ := (decodeCommandIsShapeAndLegality c w i).1 hi
  cases h.symm.trans hshape

/-- Settles O49: a reserved opcode, or a reserved bit of a defined one, gives the word the shape of no command. -/
theorem reservedEncodingsAreIllegal : Obligations.ReservedEncodingsAreIllegal := by
  intro c w
  refine ⟨decodeCommand_of_op_reserved, fun hop hres => ?_, fun hop hres => ?_, fun hop hres => ?_,
    decodeCommand_of_op_reserved (by decide), decodeCommand_of_op_reserved (by decide)⟩
  · exact decodeCommand_eq_none_of_decode_eq_error ((decode_of_op_dmap hop).trans (if_neg hres))
  · exact decodeCommand_eq_none_of_decode_eq_error ((decode_of_op_ddual hop).trans (if_neg (not_and_or.2 hres)))
  · rw [getLsbD_eq_true_iff_extractLsb'_ne_zero] at hres
    exact decodeCommand_eq_none_of_decode_eq_error ((decode_of_op_dtile hop).trans (if_neg (not_and_or.2 hres)))

end Sys2Proof

/-! PROOFS. The check phase where it faults, and the display-grid view (60_exceptions.md R176, R181; 30_encoding.md R92). -/

namespace Sys2Proof.Machine

/-- A command whose check phase faults records the fault with its own word and changes nothing else (R176). -/
theorem exec_of_check_eq_raise {i : Instr} {s : State} {cause : Cause} (h : check i s = .raise cause) :
    exec i s = .next (s.raise cause (encode i)) := by
  cases i with
  | dmap ms sg pr => rw [exec, execDmap, underCheck, h]
  | ddual pr => rw [exec, execDdual, underCheck, h]
  | dtile n gw gh pr => rw [exec, execDtile, underCheck, h]

/-- A legal command on a loaded VRAM that reads more tiles than VRAM holds is out of range (R181, R182). -/
theorem check_eq_raise_vramOutOfRange {i : Instr} {s : State} {v : Vram} (hf : s.fault = none) (hl : legal s.cfg i = true)
    (hv : s.vram = some v) (ht : 512 < directTiles i) : check i s = .raise .vramOutOfRange := by
  simp [check, hf, hl, hv, ht]

/-- Settles O22: the view is a legal `DTILE` that reads 32 × 32 = 1024 tiles of the 512 that VRAM holds. -/
theorem displayGridViewFaults : Obligations.DisplayGridViewFaults := by
  intro s v hf hv
  have hlegal : legal s.cfg Instr.dgrid = true := rfl
  have htiles : 512 < directTiles Instr.dgrid := by decide
  have hword : encode Instr.dgrid = 0x32082000#32 := by decide
  rw [exec_of_check_eq_raise (check_eq_raise_vramOutOfRange hf hlegal hv htiles), hword]
  rfl

end Sys2Proof.Machine

/-! PROOFS. The bitplane decoder: the index of a pixel from its pair of bits, the eight lanes of a row, and the sixteen bytes of
a tile (40_bitplane_decoder.md R110 to R114). -/

namespace Sys2Proof.Machine

/-! ## `PIX` (R110, R111) -/

/-- The index of a pixel is the number its pair of bits writes in binary, the bit of the high plane first. -/
theorem pix_toNat (lo hi : Byte) (col : Fin 8) :
    (pix lo hi col).toNat = 2 * (hi.getLsbD (7 - col.val)).toNat + (lo.getLsbD (7 - col.val)).toNat := by
  rw [pix]
  cases lo.getLsbD (7 - col.val) <;> cases hi.getLsbD (7 - col.val) <;> rfl

/-- Bit `n` of a byte as R111 reads it, by a shift and a mask. -/
theorem shiftRight_and_one_eq_bit (b : Byte) (n : Nat) : (b.toNat >>> n) &&& 1 = (b.getLsbD n).toNat := by
  rw [Nat.and_one_is_mod, Nat.shiftRight_eq_div_pow, BitVec.getLsbD, Nat.toNat_testBit]

/-- Two bits put together by a shift and an `or` are two binary digits. -/
theorem bit_shiftLeft_or_bit (a b : Bool) : (a.toNat <<< 1) ||| b.toNat = 2 * a.toNat + b.toNat := by
  cases a <;> cases b <;> rfl

/-- Two binary digits are determined by the number they write. -/
theorem two_mul_bit_add_bit_inj (a b a' b' : Bool) :
    2 * a.toNat + b.toNat = 2 * a'.toNat + b'.toNat ↔ b = b' ∧ a = a' := by
  revert a b a' b'
  decide

/-- Every index is the number its own two bits write. -/
theorem two_mul_bit_add_bit_self (k : ColorIndex) : 2 * (k.getLsbD 1).toNat + (k.getLsbD 0).toNat = k.toNat := by
  revert k
  decide

/-- Two pixels have the same index exactly when their pairs of bits agree. -/
theorem pix_eq_pix_iff {lo hi lo' hi' : Byte} {col col' : Fin 8} :
    pix lo hi col = pix lo' hi' col' ↔
      lo.getLsbD (7 - col.val) = lo'.getLsbD (7 - col'.val) ∧ hi.getLsbD (7 - col.val) = hi'.getLsbD (7 - col'.val) := by
  rw [← BitVec.toNat_inj, pix_toNat, pix_toNat, two_mul_bit_add_bit_inj]

/-- Bytes filled with the two bits of an index give that index in every column. -/
theorem pix_fill (k : ColorIndex) (col : Fin 8) : pix (.fill 8 (k.getLsbD 0)) (.fill 8 (k.getLsbD 1)) col = k := by
  have hbit (b : Bool) : (BitVec.fill 8 b).getLsbD (7 - col.val) = b := by
    rw [BitVec.getLsbD_fill, decide_eq_true (by omega : 7 - col.val < 8), Bool.and_true]
  rw [← BitVec.toNat_inj, pix_toNat, hbit, hbit, two_mul_bit_add_bit_self]

/-- Settles O1: the index is the number its two bits write in binary, which determines them and takes every value. -/
theorem pixelIndexFromBitPair : Obligations.PixelIndexFromBitPair := by
  refine ⟨fun lo hi col => ⟨pix_toNat lo hi col, ?_⟩, fun _ _ _ _ _ _ => pix_eq_pix_iff, fun k col => ⟨_, _, pix_fill k col⟩⟩
  rw [shiftRight_and_one_eq_bit, shiftRight_and_one_eq_bit, bit_shiftLeft_or_bit, pix_toNat]

/-! ## `ROW` (R112) -/

/-- Lane `col` of a row is the pixel of column `col`. -/
@[simp] theorem row_get (lo hi : Byte) (col : Fin 8) : (row lo hi).get col = pix lo hi col := by
  rw [row, Vector.get_ofFn]

/-- Settles O2: the lanes are `row_get`, the seven closed rows are computed. -/
theorem rowIsEightPixels : Obligations.RowIsEightPixels :=
  ⟨row_get, by decide, by decide, by decide, by decide, by decide, by decide, by decide⟩

/-! ## `TILE` (R113, R114) -/

/-- The two bytes of a row are the same on any VRAM that holds the same 16 bytes of the tile. -/
theorem rowBytes_congr {v v' : Vram} {off : Int} (h : ∀ k : Fin 16, memRead v' (off + k.val) = memRead v (off + k.val))
    (r : Fin 8) : rowBytes v' off r = rowBytes v off r := by
  have hlo : memRead v' (off + 2 * r.val) = memRead v (off + 2 * r.val) := by
    simpa using h ⟨2 * r.val, by omega⟩
  have hhi : memRead v' (off + 2 * r.val + 1) = memRead v (off + 2 * r.val + 1) := by
    simpa [add_assoc] using h ⟨2 * r.val + 1, by omega⟩
  rw [rowBytes, rowBytes, hlo, hhi]

/-- `TILE` is the same on any VRAM that holds the same 16 bytes of the tile, inside VRAM or not. -/
theorem tile_congr {v v' : Vram} {off : Int} (h : ∀ k : Fin 16, memRead v' (off + k.val) = memRead v (off + k.val)) :
    tile v' off = tile v off := by
  simp only [tile, rowBytes_congr h]

/-- Settles O3: `tile_ok` names the eight rows by their bytes, and a tile reads VRAM only through `rowBytes`. -/
theorem tileDecodesItsSixteenBytes : Obligations.TileDecodesItsSixteenBytes := by
  intro v off h0 h1
  refine ⟨⟨_, tile_ok h0 (by omega), by simp, fun r => ?_⟩, fun _ h => tile_congr h⟩
  exact ⟨_, _, memRead_ok (by omega) (by omega), memRead_ok (by omega) (by omega), by simp⟩

end Sys2Proof.Machine

/-! PROOFS. The tilemap address resolver: the values and the ranges of its three forms (41_tilemap_address_resolver.md R120,
R124, R126). -/

namespace Sys2Proof.Machine

theorem resDirect_eq (id : Nat) : resDirect id = 16 * (id : Int) := by
  rw [resDirect, mul_comm]

theorem resUnsigned_eq (b : Byte) : resUnsigned b = 16 * (b.toNat : Int) := by
  rw [resUnsigned, zero_add, mul_comm]

theorem resUnsigned_range (b : Byte) : 0x0000 ≤ resUnsigned b ∧ resUnsigned b ≤ 0x0FF0 := by
  have hb := b.isLt
  rw [resUnsigned_eq]
  omega

/-- An entry below 0x80 is its own signed value (R14). -/
theorem sext8_of_lt {b : Byte} (h : b.toNat < 128) : sext8 b = b.toNat := if_pos h

/-- An entry from 0x80 up is negative as a signed number (R14). -/
theorem sext8_of_le {b : Byte} (h : 128 ≤ b.toNat) : sext8 b = (b.toNat : Int) - 256 := if_neg h.not_gt

theorem resSigned_range (c : Config) (b : Byte) : 0x0800 ≤ resSigned c b ∧ resSigned c b ≤ 0x17F0 := by
  obtain ⟨hlow, hhigh⟩ := sext8_range b
  rw [resSigned_eq]
  omega

/-- Settles O5: each form is its equation and its range; the signed form splits at 0x80 as `sext8` does, and its corner cases
are closed once `resSigned_eq` has put in the base of every configuration. -/
theorem resolverForms : Obligations.ResolverForms := by
  refine ⟨resDirect_eq, fun b => ⟨resUnsigned_eq b, resUnsigned_range b⟩,
    fun c b => ⟨fun h => ?below, fun h => ?above, resSigned_range c b⟩,
    by decide, by decide, by decide, by decide, by decide, by decide, by decide, by decide, by decide, fun c => ?corners⟩
  case below => rw [resSigned_eq, sext8_of_lt h]
  case above => rw [resSigned_eq, sext8_of_le h]
  case corners =>
    simp only [resSigned_eq]
    decide

end Sys2Proof.Machine

/-! PROOFS. The palette look-up: the gray word of a shade, the sentinel outside both tables, and the tables that no step writes
(42_palette_lut.md R135 to R142). -/

namespace Sys2Proof.Machine

/-! ## The gray word (R138) -/

/-- A gray word is its shade three times over, then full alpha; a shade has 256 values, all of which are tried. -/
theorem grayWord_eq_append (s : Byte) : grayWord s = s ++ s ++ s ++ 0xFF#8 := by
  revert s
  decide

theorem channelR_grayWord (s : Byte) : channelR (grayWord s) = s := by
  rw [grayWord_eq_append, channelR, BitVec.extractLsb]
  iterate 3 rw [BitVec.extractLsb'_append_eq_of_le (by decide)]
  exact BitVec.extractLsb'_eq_self

theorem channelG_grayWord (s : Byte) : channelG (grayWord s) = s := by
  rw [grayWord_eq_append, channelG, BitVec.extractLsb]
  iterate 2 rw [BitVec.extractLsb'_append_eq_of_le (by decide)]
  exact BitVec.extractLsb'_append_eq_right

theorem channelB_grayWord (s : Byte) : channelB (grayWord s) = s := by
  rw [grayWord_eq_append, channelB, BitVec.extractLsb, BitVec.extractLsb'_append_eq_of_le (by decide)]
  exact BitVec.extractLsb'_append_eq_right

theorem channelA_grayWord (s : Byte) : channelA (grayWord s) = 0xFF#8 := by
  rw [grayWord_eq_append]
  exact BitVec.extractLsb'_append_eq_right

/-- A byte put behind a word shifts the word by eight places. -/
theorem toNat_append_byte {n : Nat} (w : BitVec n) (b : Byte) : (w ++ b).toNat = w.toNat * 2 ^ 8 + b.toNat := by
  rw [BitVec.toNat_append, ← Nat.shiftLeft_add_eq_or_of_lt b.isLt, Nat.shiftLeft_eq]

/-- A gray word is the sum of its four fields. -/
theorem grayWord_toNat (s : Byte) :
    (grayWord s).toNat = s.toNat * 2 ^ 24 + s.toNat * 2 ^ 16 + s.toNat * 2 ^ 8 + 0xFF := by
  rw [grayWord_eq_append, toNat_append_byte, toNat_append_byte, toNat_append_byte, BitVec.toNat_ofNat]
  omega

/-- Settles O7: `palRgba` and `color` are look-ups by definition, the channels and the sum are read off the four bytes of a gray
word, the three example words are computed. -/
theorem colorByProfile : Obligations.ColorByProfile :=
  ⟨fun _ _ => ⟨rfl, rfl, rfl⟩,
    fun s => ⟨channelR_grayWord s, channelG_grayWord s, channelB_grayWord s, channelA_grayWord s, grayWord_toNat s⟩,
    by decide, by decide, by decide⟩

/-! ## The sentinel (R142) -/

/-- The constraint a configuration carries, at the entries that the colour indices look up. -/
theorem sentinelDistinct (c : Config) : c.SentinelDistinct := by
  obtain ⟨-, hpal, hshade⟩ := c.toParams.valid_iff.1 c.valid
  exact ⟨fun k => hpal k.toFin, fun hgray k => hshade hgray k.toFin⟩

/-- A profile that the block has never gives the sentinel. -/
theorem color_ne_sentinel {c : Config} {pr : Profile} (h : pr = .gray → c.hasGray = true) (k : ColorIndex) :
    color c pr k ≠ c.sentinel := by
  obtain ⟨hrgba, hgray⟩ := sentinelDistinct c
  cases pr with
  | rgba => exact hrgba k
  | gray => exact hgray (h rfl) k

theorem length_prefill (c : Config) (outW outH : Nat) : (prefill c outW outH).length = outW * outH := by
  rw [prefill, List.length_map, List.length_range]

/-- Settles O51: the constraint every configuration carries, the writes of the prefill, and the default with its channels. -/
theorem sentinelIsAFifthColour : Obligations.SentinelIsAFifthColour :=
  ⟨fun c => ⟨sentinelDistinct c, fun _ k h => color_ne_sentinel h k,
      fun outW outH => ⟨length_prefill c outW outH, fun _ hw => (mem_prefill.1 hw).2⟩⟩,
    fun _ _ _ => rfl, by decide, by decide, by decide, by decide⟩

/-! ## Nothing writes the tables (R137, R197) -/

/-- A rejected word leaves the configuration alone. -/
theorem rejectWord_cfg {w : Word} {s t : State} (h : rejectWord w s = .next t) : t.cfg = s.cfg := by
  rcases rejectWord_cases w s with ⟨-, he⟩ | ⟨-, he⟩
  · cases he.symm.trans h
    rfl
  · cases he.symm.trans h
    exact State.raise_cfg s _ _

/-- A command leaves the configuration alone, whether it is ignored, faults or completes its pass. -/
theorem exec_cfg {i : Instr} {s t : State} (h : exec i s = .next t) : t.cfg = s.cfg := by
  rcases exec_cases i s with ⟨-, he⟩ | ⟨-, cause, he⟩ | ⟨-, -, -, -, fb, he, -⟩
  · cases he.symm.trans h
    rfl
  · cases he.symm.trans h
    exact State.raise_cfg s _ _
  · cases he.symm.trans h
    exact State.completePass_cfg s _ _ _

/-- Settles O42: none of the things a step can do writes the configuration. -/
theorem configurationNeverChanges : Obligations.ConfigurationNeverChanges := by
  intro s t hstep
  rcases step_cases hstep with ⟨-, rfl⟩ | ⟨rest, ⟨-, rfl⟩ | ⟨_, -, -, rfl⟩ | ⟨_, _, -, -, hreject⟩ | ⟨_, _, -, -, hexec⟩ |
    ⟨_, _, -, -, rfl⟩ | ⟨_, _, -, -, -, rfl⟩⟩
  · rfl
  · rw [State.resetBlock_cfg, State.nextTransaction_cfg]
  · rw [State.loadBuffer_cfg, State.nextTransaction_cfg]
  · rw [rejectWord_cfg hreject, State.nextTransaction_cfg]
  · rw [exec_cfg hexec, State.nextTransaction_cfg]
  · rw [State.answer_cfg, State.nextTransaction_cfg]
  · rw [State.answer_cfg, State.nextTransaction_cfg]

end Sys2Proof.Machine

/-! PROOFS. Placement and `BLIT`: the index of a pixel inside the output area, and the 64 writes of a tile, position by position
(43_frame_rasterizer.md R145, R148). -/

namespace Sys2Proof.Machine

/-! ## Placement (R145) -/

/-- Settles O8: `fbIndex_lt` and `area_le` are the range, the corner cases and the worked values are computed. -/
theorem pixelIndexInsideOutputArea : Obligations.PixelIndexInsideOutputArea := by
  refine ⟨fun gw gh tx ty r col hgw hgh htx hty => ?range, fun outW => ?corners, by decide, by decide⟩
  case range =>
    have hlt := fbIndex_lt r col htx hty
    exact ⟨rfl, Nat.le_sub_one_of_lt hlt, hlt.trans_le (area_le hgw hgh)⟩
  case corners => simp [fbIndex]

/-! ## The order of the writes of a tile (R148) -/

/-- In a concatenation of lists of one length `n`, place `n * i + j` is place `j` of list `i`. -/
theorem getElem?_flatMap_of_length_eq {α β : Type} {l : List α} {f : α → List β} {n : Nat} (hf : ∀ x, (f x).length = n)
    (i : Nat) {j : Nat} (hj : j < n) : (l.flatMap f)[n * i + j]? = l[i]?.bind fun x => (f x)[j]? := by
  induction l generalizing i with
  | nil => simp
  | cons x l ih =>
    rw [List.flatMap_cons]
    cases i with
    | zero => rw [List.getElem?_append_left (by rw [hf]; omega)]; simp
    | succ i =>
      rw [List.getElem?_append_right (by rw [hf, Nat.mul_succ]; omega), hf,
        show n * (i + 1) + j - n = n * i + j by rw [Nat.mul_succ]; omega, ih, List.getElem?_cons_succ]

/-- Write `8 * r + col` of a tile puts pixel (`r`, `col`) at its index. -/
theorem getElem?_tileWrites (outW tx ty : Nat) (px : Fin 8 → Fin 8 → Word) (r col : Fin 8) :
    (tileWrites outW tx ty px)[8 * r.val + col.val]? = some (fbIndex outW tx ty r col, px r col) := by
  rw [tileWrites, getElem?_flatMap_of_length_eq (by simp) _ col.isLt]
  simp

theorem length_tileWrites (outW tx ty : Nat) (px : Fin 8 → Fin 8 → Word) : (tileWrites outW tx ty px).length = 64 := by
  simp [tileWrites]

/-! ## A tile that decodes lies inside VRAM -/

/-- Every round of a loop that answers has answered. -/
theorem exists_ok_of_collect_eq_ok {α β : Type} {xs : List α} {body : α → Except Fault (List β)} {zs : List β}
    (h : collect xs body = .ok zs) : ∀ x ∈ xs, ∃ ys, body x = .ok ys := by
  induction xs generalizing zs with
  | nil => simp
  | cons x xs ih =>
    rw [collect] at h
    cases hx : body x with
    | error e => simp [hx] at h
    | ok ys =>
      cases hxs : collect xs body with
      | error e => simp [hx, hxs] at h
      | ok us => exact List.forall_mem_cons.2 ⟨⟨ys, hx⟩, ih hxs⟩

/-- A row that answers has read both of its bytes. -/
theorem memRead_of_rowBytes_eq_ok {v : Vram} {off : Int} {r : Fin 8} {p : Byte × Byte} (h : rowBytes v off r = .ok p) :
    memRead v (off + 2 * r.val) = .ok p.1 ∧ memRead v (off + 2 * r.val + 1) = .ok p.2 := by
  rw [rowBytes] at h
  cases hlo : memRead v (off + 2 * r.val) with
  | error e => simp [hlo] at h
  | ok lo =>
    cases hhi : memRead v (off + 2 * r.val + 1) with
    | error e => simp [hlo, hhi] at h
    | ok hi =>
      simp only [hlo, hhi, Except.ok.injEq] at h
      subst h
      exact ⟨rfl, rfl⟩

/-- A tile that decodes has its first and its last byte inside VRAM. -/
theorem tile_range {v : Vram} {off : Int} {rows : List (Vector ColorIndex 8)} (h : tile v off = .ok rows) :
    0 ≤ off ∧ off + 15 < 8192 := by
  have hrow (r : Fin 8) : ∃ p, rowBytes v off r = .ok p := by
    obtain ⟨ys, hys⟩ := exists_ok_of_collect_eq_ok h r (List.mem_finRange r)
    cases hp : rowBytes v off r with
    | error e => simp [hp] at hys
    | ok p => exact ⟨p, rfl⟩
  obtain ⟨top, htop⟩ := hrow 0
  obtain ⟨bottom, hbottom⟩ := hrow 7
  have hfirst := (memRead_isOk_iff v _).1 ⟨_, (memRead_of_rowBytes_eq_ok htop).1⟩
  have hlast := (memRead_isOk_iff v _).1 ⟨_, (memRead_of_rowBytes_eq_ok hbottom).2⟩
  norm_num at hfirst hlast
  omega

/-- Settles O4: a tile that decodes lies inside VRAM, where `tile_ok` and `blit_ok` name its rows and its writes. -/
theorem blitPlacesTheDecodedTile : Obligations.BlitPlacesTheDecodedTile := by
  intro c v outW tx ty off pr rows htile
  obtain ⟨h0, h1⟩ := tile_range htile
  cases htile.symm.trans (tile_ok h0 h1)
  refine ⟨_, blit_ok c outW tx ty pr h0 h1, length_tileWrites _ _ _ _, fun r col => ?_⟩
  refine ⟨row (vramByte v (off + 2 * r.val)) (vramByte v (off + 2 * r.val + 1)), by simp, ?_⟩
  rw [getElem?_tileWrites, tilePixel, row_get]

end Sys2Proof.Machine

/-! PROOFS. The words a walk writes: each of its covered region once, in an order the command alone decides
(43_frame_rasterizer.md R150, R161). -/

namespace Sys2Proof.Machine

/-! ## Pixels and word indices of an area -/

/-- The indices of an area are those of its pixels. -/
theorem exists_pixel_iff_lt {w h k : Nat} : (∃ x y, x < w ∧ y < h ∧ k = y * w + x) ↔ k < w * h := by
  constructor
  · rintro ⟨x, y, hx, hy, rfl⟩
    exact id_lt hx hy
  · intro hk
    have hw : 0 < w := Nat.pos_of_mul_pos_right (Nat.zero_lt_of_lt hk)
    exact ⟨k % w, k / w, Nat.mod_lt k hw, Nat.div_lt_of_lt_mul hk, (Nat.div_add_mod' k w).symm⟩

/-! ## The indices of a walk -/

/-- The word indices of the tile at (tx, ty), in the order of its writes. -/
def tileIndices (outW tx ty : Nat) : List Nat :=
  (List.finRange 8).flatMap fun r => (List.finRange 8).map fun col => fbIndex outW tx ty r col

/-- The word indices of a walk that draws the tiles `drawn` picks, in the order of its writes. -/
def gridIndices (gw gh : Nat) (drawn : Nat → Nat → Bool) : List Nat :=
  (List.range gh).flatMap fun ty => (List.range gw).flatMap fun tx => if drawn tx ty then tileIndices (8 * gw) tx ty else []

theorem map_fst_tileWrites (outW tx ty : Nat) (px : Fin 8 → Fin 8 → Word) :
    (tileWrites outW tx ty px).map Prod.fst = tileIndices outW tx ty := by
  simp [tileWrites, tileIndices, List.map_flatMap, Function.comp_def]

/-- The words a walk writes do not depend on the pixels it draws (R161). -/
theorem map_fst_gridWrites (gw gh : Nat) (drawn : Nat → Nat → Bool) (px : Nat → Nat → Fin 8 → Fin 8 → Word) :
    (gridWrites gw gh drawn px).map Prod.fst = gridIndices gw gh drawn := by
  simp only [gridWrites, gridIndices, List.map_flatMap, apply_ite (List.map Prod.fst), map_fst_tileWrites, List.map_nil]

/-- A walk writes the words of the pixels whose tile is drawn. -/
theorem mem_gridIndices {gw gh : Nat} {drawn : Nat → Nat → Bool} {i : Nat} :
    i ∈ gridIndices gw gh drawn ↔
      ∃ x y, x < 8 * gw ∧ y < 8 * gh ∧ drawn (x / 8) (y / 8) = true ∧ i = y * (8 * gw) + x := by
  rw [← map_fst_gridWrites gw gh drawn fun _ _ _ _ => 0#32]
  simp only [List.mem_map, mem_gridWrites]
  constructor
  · rintro ⟨_, ⟨ty, hty, tx, htx, hdrawn, r, col, rfl⟩, rfl⟩
    refine ⟨tx * 8 + col.val, ty * 8 + r.val, by omega, by omega, ?_, rfl⟩
    rwa [show (tx * 8 + col.val) / 8 = tx by omega, show (ty * 8 + r.val) / 8 = ty by omega]
  · rintro ⟨x, y, hx, hy, hdrawn, rfl⟩
    refine ⟨_, ⟨y / 8, by omega, x / 8, by omega, hdrawn, mod8 y, mod8 x, rfl⟩, ?_⟩
    simp only [fbIndex, mod8, Nat.div_add_mod']

/-- A walk that draws every tile writes the words of its whole output area. -/
theorem mem_gridIndices_all {gw gh i : Nat} : i ∈ gridIndices gw gh (fun _ _ => true) ↔ i < 8 * gw * (8 * gh) := by
  simp only [mem_gridIndices, true_and, exists_pixel_iff_lt]

/-! ## No index twice -/

/-- Lists without duplicates, each recognised by a key that all its members share, have no duplicate together. -/
theorem nodup_flatMap_of_key {α β : Type} {l : List α} {f : α → List β} (key : β → α) (hl : l.Nodup)
    (hf : ∀ x ∈ l, (f x).Nodup) (hkey : ∀ x ∈ l, ∀ b ∈ f x, key b = x) : (l.flatMap f).Nodup := by
  refine List.nodup_flatMap.2 ⟨hf, hl.pairwise_of_forall_ne fun x hx y hy hne b hbx hby => hne ?_⟩
  rw [← hkey x hx b hbx, hkey y hy b hby]

theorem mem_tileIndices {outW tx ty i : Nat} : i ∈ tileIndices outW tx ty ↔ ∃ r col, i = fbIndex outW tx ty r col := by
  simp [tileIndices, eq_comm]

/-- The indices of a tile are distinct: the pixel row separates its rows. -/
theorem nodup_tileIndices {gw tx : Nat} (ty : Nat) (htx : tx < gw) : (tileIndices (8 * gw) tx ty).Nodup := by
  refine nodup_flatMap_of_key (fun i => mod8 (i / (8 * gw))) (List.nodup_finRange 8) (fun r _ => ?_) fun r _ i hi => ?_
  · refine (List.nodup_finRange 8).map fun col col' h => Fin.ext ?_
    have h : fbIndex (8 * gw) tx ty r col = fbIndex (8 * gw) tx ty r col' := h
    simpa only [fbIndex, Nat.add_left_cancel_iff] using h
  · obtain ⟨col, -, rfl⟩ := List.mem_map.1 hi
    apply Fin.ext
    simp only [mod8, fbIndex_div r col htx]
    omega

/-- A walk writes no word twice (R150): the pixel row separates its tile rows and the pixel column the tiles of one. -/
theorem nodup_gridIndices (gw gh : Nat) (drawn : Nat → Nat → Bool) : (gridIndices gw gh drawn).Nodup := by
  have hkeys {tx ty i : Nat} (htx : tx < gw) (hi : i ∈ if drawn tx ty then tileIndices (8 * gw) tx ty else []) :
      i / (8 * gw) / 8 = ty ∧ i % (8 * gw) / 8 = tx := by
    split_ifs at hi
    · obtain ⟨r, col, rfl⟩ := mem_tileIndices.1 hi
      rw [fbIndex_div r col htx, fbIndex_mod r col htx]
      omega
    · cases hi
  refine nodup_flatMap_of_key (fun i => i / (8 * gw) / 8) List.nodup_range (fun ty _ => ?_) fun ty _ i hi => ?_
  · refine nodup_flatMap_of_key (fun i => i % (8 * gw) / 8) List.nodup_range (fun tx htx => ?_)
      fun tx htx i hi => (hkeys (List.mem_range.1 htx) hi).2
    split_ifs
    · exact nodup_tileIndices ty (List.mem_range.1 htx)
    · exact List.nodup_nil
  · obtain ⟨tx, htx, hi⟩ := List.mem_flatMap.1 hi
    exact (hkeys (List.mem_range.1 htx) hi).1

/-! ## The walks of the three commands -/

theorem walk_dmapCell (c : Config) (v : Vram) (ms : MapSelect) (sg : Addressing) (pr : Profile) :
    walk 32 32 (dmapCell c v ms sg pr) = .ok (gridWrites 32 32 (fun _ _ => true) (dmapPixel c v ms sg pr)) :=
  walk_ok (dmapCell_ok c v ms sg pr)

theorem walk_ddualCell (c : Config) (v : Vram) (pr : Profile) :
    walk 32 64 (ddualCell c v pr) = .ok (gridWrites 32 64 (fun _ _ => true) (ddualPixel c v pr)) :=
  walk_ok (ddualCell_ok c v pr)

theorem walk_dtileCell (c : Config) (v : Vram) {n gw gh : Nat} (pr : Profile) (h : min n (gw * gh) ≤ 512) :
    walk gw gh (dtileCell c v n gw pr) =
      .ok (gridWrites gw gh (fun tx ty => decide (ty * gw + tx < n)) (dtilePixel c v gw pr)) :=
  walk_ok (dtileCell_ok c v pr h)

/-- Settles O12: each walk is a grid of writes, whose indices are distinct and are those of the drawn tiles. -/
theorem walkWritesEachCoveredWordOnce : Obligations.WalkWritesEachCoveredWordOnce := by
  refine ⟨fun c v ms sg pr => ⟨_, walk_dmapCell c v ms sg pr, ?_⟩, fun c v pr => ⟨_, walk_ddualCell c v pr, ?_⟩,
    fun c v n gw gh pr h => ⟨_, walk_dtileCell c v pr h, ?_⟩⟩ <;> rw [map_fst_gridWrites]
  · exact ⟨nodup_gridIndices _ _ _, fun i => mem_gridIndices_all⟩
  · exact ⟨nodup_gridIndices _ _ _, fun i => mem_gridIndices_all⟩
  · exact ⟨nodup_gridIndices _ _ _, fun i => by simp only [mem_gridIndices, decide_eq_true_eq]⟩

/-- Settles O14: on any VRAM the indices of a walk are those of its grid. -/
theorem writtenWordsIndependentOfVram : Obligations.WrittenWordsIndependentOfVram := by
  refine ⟨fun c v v' ms sg pr => ⟨_, _, walk_dmapCell c v ms sg pr, walk_dmapCell c v' ms sg pr, ?_⟩,
    fun c v v' pr => ⟨_, _, walk_ddualCell c v pr, walk_ddualCell c v' pr, ?_⟩,
    fun c v v' n gw gh pr h => ⟨_, _, walk_dtileCell c v pr h, walk_dtileCell c v' pr h, ?_⟩⟩ <;>
  rw [map_fst_gridWrites, map_fst_gridWrites]

end Sys2Proof.Machine

/-! PROOFS. The three commands: the picture a completed pass leaves, that it depends on VRAM and the configuration only, and what
every command leaves alone (43_frame_rasterizer.md sections 2 to 6). -/

namespace Sys2Proof.Machine

/-! ## A command that passes its check (R151) -/

/-- What a completed command shows at pixel (x, y) of its output area (R152, R155, R158). -/
def shownPixel (c : Config) (v : Vram) (i : Instr) (x y : Nat) : Word :=
  match i with
  | .dmap ms sg pr => dmapPixel c v ms sg pr (x / 8) (y / 8) (mod8 y) (mod8 x)
  | .ddual pr => ddualPixel c v pr (x / 8) (y / 8) (mod8 y) (mod8 x)
  | .dtile n gw _ pr =>
    if y / 8 * gw.toNat + x / 8 < n.toNat then dtilePixel c v gw.toNat pr (x / 8) (y / 8) (mod8 y) (mod8 x) else c.sentinel

/-- What a completed command leaves in the framebuffer of the state `s`: its picture, and every word above it as before. -/
def ShowsPicture (v : Vram) (i : Instr) (s : State) (fb : Fb) : Prop :=
  (∀ x y, x < (outputSize i).1 → y < (outputSize i).2 →
    fbWord fb (y * (outputSize i).1 + x) = some (shownPixel s.cfg v i x y)) ∧
  (∀ k, (outputSize i).1 * (outputSize i).2 ≤ k → fbWord fb k = fbWord s.fb k)

/-- A legal command on a loaded VRAM that holds its tiles completes and shows its picture. -/
theorem exec_shows {i : Instr} {s : State} {v : Vram} (hf : s.fault = none) (hv : s.vram = some v)
    (hl : legal s.cfg i = true) (ht : directTiles i ≤ 512) :
    ∃ fb, exec i s = .next (s.completePass fb (outputSize i).1 (outputSize i).2) ∧ ShowsPicture v i s fb := by
  cases i with
  | dmap ms sg pr =>
    obtain ⟨fb, hpass, hpixels, habove, -⟩ := runPass_spec s (by decide) (by decide) (dmapCell_ok s.cfg v ms sg pr)
    exact ⟨fb, (underCheck_run hf hl hv ht _).trans hpass, fun x y hx hy => hpixels x hx y hy, habove⟩
  | ddual pr =>
    obtain ⟨fb, hpass, hpixels, habove, -⟩ := runPass_spec s (by decide) (by decide) (ddualCell_ok s.cfg v pr)
    exact ⟨fb, (underCheck_run hf hl hv ht _).trans hpass, fun x y hx hy => hpixels x hx y hy, habove⟩
  | dtile n gw gh pr =>
    have hgrid := hl
    simp only [legal, gridWidthLegal, gridHeightLegal, Bool.and_eq_true, decide_eq_true_eq] at hgrid
    obtain ⟨⟨⟨-, -, hgw⟩, -, hgh⟩, -⟩ := hgrid
    obtain ⟨fb, hpass, hpixels, habove, -⟩ := runPass_spec s hgw hgh (dtileCell_ok s.cfg v pr ht)
    refine ⟨fb, (underCheck_run hf hl hv ht _).trans hpass, fun x y hx hy => ?_, habove⟩
    simpa only [decide_eq_true_eq, outputSize, shownPixel, mod8] using hpixels x hx y hy

/-- Sizes that fit the fields of `DIMS` are read back from them (R32). -/
theorem completePass_dims (s : State) (fb : Fb) {w h : Nat} (hw : w < 1024) (hh : h < 1024) :
    (s.completePass fb w h).outW.toNat = w ∧ (s.completePass fb w h).outH.toNat = h := by
  simp only [State.completePass_outW, State.completePass_outH, BitVec.toNat_ofNat]
  exact ⟨Nat.mod_eq_of_lt hw, Nat.mod_eq_of_lt hh⟩

/-- A legal command on a loaded VRAM that holds its tiles completes: it shows its picture, sets `DIMS` to the size of its output
area, and leaves the rest of the machine as before (R147, R151). -/
theorem exec_completes {i : Instr} {s : State} {v : Vram} (hf : s.fault = none) (hv : s.vram = some v)
    (hl : legal s.cfg i = true) (ht : directTiles i ≤ 512) :
    ∃ t, exec i s = .next t ∧ ShowsPicture v i s t.fb ∧ t.outW.toNat = (outputSize i).1 ∧ t.outH.toNat = (outputSize i).2 ∧
      t.fault = s.fault ∧ t.vram = s.vram ∧ t.cfg = s.cfg ∧ t.pending = s.pending ∧ t.reply = s.reply := by
  obtain ⟨fb, hexec, hshows⟩ := exec_shows hf hv hl ht
  obtain ⟨-, -, hw, -, -, hh⟩ := outputSize_range hl
  obtain ⟨houtW, houtH⟩ := completePass_dims s fb (show (outputSize i).1 < 1024 by omega) (show (outputSize i).2 < 1024 by omega)
  exact ⟨_, hexec, hshows, houtW, houtH, rfl, rfl, rfl, rfl, rfl⟩

/-! ## The pictures in terms of the bytes of VRAM -/

theorem profileLegal_iff {c : Config} {pr : Profile} : profileLegal c pr = true ↔ (pr = .gray → c.hasGray = true) := by
  cases pr <;> simp [profileLegal]

/-- A pixel of a tile inside VRAM is the colour of its two bits, read from the two bytes of its row. -/
theorem tilePixel_reads (c : Config) (v : Vram) {off : Int} (pr : Profile) (r col : Fin 8) (h0 : 0 ≤ off)
    (h1 : off + 15 < 8192) :
    ∃ lo hi, memRead v (off + 2 * r.val) = .ok lo ∧ memRead v (off + 2 * r.val + 1) = .ok hi ∧
      tilePixel c v off pr r col = color c pr (pix lo hi col) :=
  ⟨_, _, memRead_ok (by omega) (by omega), memRead_ok (by omega) (by omega), rfl⟩

/-- The output area of `DMAP` in words (R85). -/
theorem outputArea_dmap (ms : MapSelect) (sg : Addressing) (pr : Profile) :
    (outputSize (.dmap ms sg pr)).1 * (outputSize (.dmap ms sg pr)).2 = 65536 := by
  have hw : (outputSize (.dmap ms sg pr)).1 = 256 := rfl
  have hh : (outputSize (.dmap ms sg pr)).2 = 256 := rfl
  rw [hw, hh]

/-- The output area of `DDUAL` in words (R85). -/
theorem outputArea_ddual (pr : Profile) : (outputSize (.ddual pr)).1 * (outputSize (.ddual pr)).2 = 131072 := by
  have hw : (outputSize (.ddual pr)).1 = 256 := rfl
  have hh : (outputSize (.ddual pr)).2 = 512 := rfl
  rw [hw, hh]

/-- Settles O16: `exec_completes`, with the map entry and the two bytes of the pixel's row read back from its picture. -/
theorem dmapPass : Obligations.DmapPass := by
  intro s v ms sg pr hf hv hgray
  obtain ⟨t, hexec, ⟨hpixels, habove⟩, hframe⟩ :=
    exec_completes (i := .dmap ms sg pr) hf hv (profileLegal_iff.2 hgray) (Nat.zero_le _)
  rw [outputArea_dmap] at habove
  refine ⟨t, hexec, fun px py hx hy => ?_, habove, hframe⟩
  have hbase : (if ms = .map0 then 0x1800 else 0x1C00) = mapBase ms := by cases ms <;> rfl
  have hcell : mapBase ms + py / 8 * 32 + px / 8 < 8192 := by rw [← hbase]; split_ifs <;> omega
  obtain ⟨h0, h1⟩ := resolve_range s.cfg sg (vramByte v ((mapBase ms + py / 8 * 32 + px / 8 : Nat) : Int))
  obtain ⟨lo, hi, hlo, hhi, hcolor⟩ := tilePixel_reads s.cfg v pr (mod8 py) (mod8 px) h0 h1
  rw [hbase]
  exact ⟨_, lo, hi, mapEntry_ok v hcell, hlo, hhi, (hpixels px py hx hy).trans (congrArg some hcolor)⟩

/-- A pixel of `DDUAL` is one of the tile its map entry names, with the addressing and the profile of its half (R155). -/
theorem ddualPixel_eq_tilePixel (c : Config) (v : Vram) (pr : Profile) (tx ty : Nat) :
    let b := vramByte v ((0x1800 + ty * 32 + tx : Nat) : Int)
    ddualPixel c v pr tx ty =
      tilePixel c v (if ty ≤ 31 then resUnsigned b else resSigned c b) (if ty ≤ 31 then .rgba else pr) := by
  intro b
  simp only [ddualPixel, Nat.lt_succ_iff (n := 31)]
  split_ifs <;> rfl

/-- In both halves of the region the tile an entry names lies inside VRAM (R131). -/
theorem ddual_resolve_range (c : Config) (b : Byte) (ty : Nat) :
    0 ≤ (if ty ≤ 31 then resUnsigned b else resSigned c b) ∧ (if ty ≤ 31 then resUnsigned b else resSigned c b) + 15 < 8192 := by
  split_ifs
  · exact resolve_range c .unsigned b
  · exact resolve_range c .signed b

/-- Settles O17: as for `DMAP`, with the addressing and the profile of each half. -/
theorem ddualPass : Obligations.DdualPass := by
  intro s v pr hf hv hgray
  obtain ⟨t, hexec, ⟨hpixels, habove⟩, hframe⟩ :=
    exec_completes (i := .ddual pr) hf hv (profileLegal_iff.2 hgray) (Nat.zero_le _)
  rw [outputArea_ddual] at habove
  refine ⟨t, hexec, fun px py hx hy => ?_, habove, hframe⟩
  have hpixel := hpixels px py hx hy
  rw [shownPixel, ddualPixel_eq_tilePixel] at hpixel
  obtain ⟨h0, h1⟩ := ddual_resolve_range s.cfg (vramByte v ((0x1800 + py / 8 * 32 + px / 8 : Nat) : Int)) (py / 8)
  obtain ⟨lo, hi, hlo, hhi, hcolor⟩ :=
    tilePixel_reads s.cfg v (if py / 8 ≤ 31 then .rgba else pr) (mod8 py) (mod8 px) h0 h1
  exact ⟨_, lo, hi, mapEntry_ok v (by omega), hlo, hhi, hpixel.trans (congrArg some hcolor)⟩

/-- Settles O18: `exec_completes`; an id below `n` and in the grid names a tile inside VRAM. -/
theorem dtilePass : Obligations.DtilePass := by
  intro s v n gw gh pr hf hv hgray hgw0 hgw hgh0 hgh hn htiles
  have hlegal : legal s.cfg (.dtile n gw gh pr) = true := by
    simp only [legal, gridWidthLegal, gridHeightLegal, tileCountLegal, profileLegal_iff.2 hgray, Bool.and_eq_true,
      decide_eq_true_eq]
    exact ⟨⟨⟨trivial, hgw0, hgw⟩, hgh0, hgh⟩, hn⟩
  obtain ⟨t, hexec, ⟨hpixels, habove⟩, hframe⟩ := exec_completes hf hv hlegal htiles
  refine ⟨t, hexec, fun px py hx hy => ?_, habove, hframe⟩
  have hpixel := hpixels px py hx hy
  have hid := id_lt (show px / 8 < gw.toNat by omega) (show py / 8 < gh.toNat by omega)
  simp only [shownPixel, dtilePixel, resDirect_eq] at hpixel
  refine ⟨fun hge => ?sentinel, fun hlt => ?tile⟩
  case sentinel => rwa [if_neg (Nat.not_lt.2 hge)] at hpixel
  case tile =>
    obtain ⟨lo, hi, hlo, hhi, hcolor⟩ := tilePixel_reads (off := 16 * ((py / 8 * gw.toNat + px / 8 : Nat) : Int)) s.cfg v pr
      (mod8 py) (mod8 px) (by omega) (by omega)
    rw [if_pos hlt] at hpixel
    exact ⟨lo, hi, by exact_mod_cast hlo, by exact_mod_cast hhi, hpixel.trans (congrArg some hcolor)⟩

/-! ## What a command depends on, and what it leaves alone -/

/-- The check phase reads the fault, the configuration and VRAM only. -/
theorem check_congr {s s' : State} (i : Instr) (hf : s.fault = s'.fault) (hc : s.cfg = s'.cfg) (hv : s.vram = s'.vram) :
    check i s = check i s' := by
  rw [check, check, hf, hc, hv]

/-- Without a recorded fault no command is ignored (R178). -/
theorem check_ne_ignore {s : State} (i : Instr) (hf : s.fault = none) : check i s ≠ .ignore := by
  rw [check, hf]
  cases legal s.cfg i with
  | false => simp
  | true =>
    cases s.vram with
    | none => simp
    | some v => by_cases ht : directTiles i > 512 <;> simp [ht]

/-- Settles O23: both states take the same verdict; a pass shows the same picture in both. -/
theorem equalCommandsEqualOutput : Obligations.EqualCommandsEqualOutput := by
  intro i s s' hv hc hf hf'
  have hcheck := check_congr i (hf.trans hf'.symm) hc hv
  cases h : check i s with
  | ignore => exact absurd h (check_ne_ignore i hf)
  | raise cause =>
    refine ⟨_, _, exec_of_check_eq_raise h, exec_of_check_eq_raise (hcheck.symm.trans h), rfl, fun hnone => ?_⟩
    rw [State.raise_fault] at hnone
    cases hnone
  | run v =>
    obtain ⟨-, hlegal, hload, htiles⟩ := (check_eq_run_iff i s v).1 h
    obtain ⟨t, hexec, ⟨hpixels, -⟩, hw, hh, hfault, -⟩ := exec_completes hf hload hlegal htiles
    obtain ⟨t', hexec', ⟨hpixels', -⟩, hw', hh', hfault', -⟩ :=
      exec_completes hf' (hv ▸ hload) (hc ▸ hlegal) htiles
    refine ⟨t, t', hexec, hexec', by rw [hfault, hfault', hf, hf'], fun _ => ⟨?_, ?_, fun k hk => ?_⟩⟩
    · exact BitVec.eq_of_toNat_eq (hw.trans hw'.symm)
    · exact BitVec.eq_of_toNat_eq (hh.trans hh'.symm)
    · rw [hw, hh] at hk
      obtain ⟨x, y, hx, hy, rfl⟩ := exists_pixel_iff_lt.2 hk
      rw [hpixels x y hx hy, hpixels' x y hx hy, hc]
      exact ⟨rfl, rfl⟩

/-- Settles O24: each of the three things a command can do leaves these parts alone. -/
theorem commandFrame : Obligations.CommandFrame := by
  intro i s t h
  rcases exec_cases i s with ⟨-, he⟩ | ⟨-, cause, he⟩ | ⟨hf, -, -, -, fb, he, -, habove, -⟩
  · cases he.symm.trans h
    exact ⟨rfl, rfl, rfl, rfl, fun _ _ => rfl, fun _ => ⟨rfl, rfl, rfl⟩⟩
  · cases he.symm.trans h
    exact ⟨rfl, rfl, rfl, rfl, fun _ _ => rfl, fun _ => ⟨rfl, rfl, rfl⟩⟩
  · cases he.symm.trans h
    exact ⟨rfl, rfl, rfl, rfl, habove, fun hfault => absurd hf hfault⟩

/-- Settles O26: each of the three things a command can do ends in a next state. -/
theorem everyCommandTerminates : Obligations.EveryCommandTerminates := by
  intro i s
  rcases exec_cases i s with ⟨-, he⟩ | ⟨-, cause, he⟩ | ⟨-, -, -, -, fb, he, -⟩
  · exact ⟨_, he⟩
  · exact ⟨_, he⟩
  · exact ⟨_, he⟩

end Sys2Proof.Machine

/-! PROOFS. What each transaction of the host does: an `ISSUE` test by test of the check phase, the two reads and the load
(60_exceptions.md R170 to R182). -/

namespace Sys2Proof.Machine

/-! ## One step (R170) -/

/-- With no transaction to make a step changes nothing (log 1). -/
theorem step_of_pending_nil {s : State} (h : s.pending = []) : step s = .next s := by
  simp only [step, hostStep, h]

/-- A step performs the host's next transaction, with the host's list moved on (log 1, log 2). -/
theorem step_of_pending_cons {s : State} {t : Transaction} {rest : List Transaction} (h : s.pending = t :: rest) :
    step s = perform t (s.nextTransaction rest) := by
  simp only [step, hostStep, h]

/-! ## The check phase of a command (R178 to R182) -/

/-- After a fault every command does nothing (R178). -/
theorem exec_of_fault (i : Instr) {s : State} (h : s.fault ≠ none) : exec i s = .next s := by
  rcases exec_cases i s with ⟨-, he⟩ | ⟨hf, -⟩ | ⟨hf, -⟩
  · exact he
  · exact absurd hf h
  · exact absurd hf h

/-- An illegal field value is found before VRAM is looked at (R179). -/
theorem check_eq_raise_illegalCommand {i : Instr} {s : State} (hf : s.fault = none) (hl : ¬ legal s.cfg i = true) :
    check i s = .raise .illegalCommand := by
  simp [check, hf, hl]

/-- A legal command before any load since reset (R180). -/
theorem check_eq_raise_vramNotLoaded {i : Instr} {s : State} (hf : s.fault = none) (hl : legal s.cfg i = true)
    (hv : s.vram = none) : check i s = .raise .vramNotLoaded := by
  simp [check, hf, hl, hv]

/-- A command reads more tiles from the tile array than VRAM holds exactly when it is such a `DTILE` (R181). -/
theorem lt_directTiles_iff {i : Instr} :
    512 < directTiles i ↔ ∃ n gw gh pr, i = .dtile n gw gh pr ∧ 512 < min n.toNat (gw.toNat * gh.toNat) := by
  cases i with
  | dmap ms sg pr => simp [directTiles]
  | ddual pr => simp [directTiles]
  | dtile n gw gh pr =>
    constructor
    · intro h
      exact ⟨n, gw, gh, pr, rfl, h⟩
    · rintro ⟨_, _, _, _, heq, h⟩
      cases heq
      exact h

/-- The tiles of a command lie inside VRAM exactly when it is no `DTILE` that reads more than VRAM holds (R181). -/
theorem directTiles_le_iff {i : Instr} :
    directTiles i ≤ 512 ↔ ∀ n gw gh pr, i = .dtile n gw gh pr → min n.toNat (gw.toNat * gh.toNat) ≤ 512 := by
  rw [← not_lt, lt_directTiles_iff]
  simp only [not_exists, not_and, not_lt]

/-! ## `ISSUE(w)`, by the decode of R89 (R172, R182) -/

/-- `ISSUE` of a word with the shape of a command is that command. -/
theorem issue_of_decode_eq_ok {w : Word} {i : Instr} (s : State) (h : decode w = .ok i) : issue w s = exec i s := by
  simp only [issue, h]

/-- `ISSUE` of a word with the shape of no command rejects it. -/
theorem issue_of_decode_eq_error {w : Word} {e : DecodeError} (s : State) (h : decode w = .error e) :
    issue w s = rejectWord w s := by
  simp only [issue, h]

/-- After a fault every `ISSUE`, legal or not, does nothing (R178). -/
theorem issue_of_fault (w : Word) {s : State} (h : s.fault ≠ none) : issue w s = .next s := by
  cases hd : decode w with
  | error e =>
    rcases rejectWord_cases w s with ⟨-, he⟩ | ⟨hf, -⟩
    · exact (issue_of_decode_eq_error s hd).trans he
    · exact absurd hf h
  | ok i => exact (issue_of_decode_eq_ok s hd).trans (exec_of_fault i h)

/-- An issued command whose check phase faults records the issued word (R176, log 8). -/
theorem issue_of_check_eq_raise {w : Word} {i : Instr} {s : State} {cause : Cause} (hd : decode w = .ok i)
    (hc : check i s = .raise cause) : issue w s = .next (s.raise cause w) := by
  rw [issue_of_decode_eq_ok s hd, exec_of_check_eq_raise hc, encodeOfDecode w i hd]

/-- `ISSUE` of an illegal word, whether its shape or a field value is at fault (R179). -/
theorem issue_of_illegal {w : Word} {s : State} (hf : s.fault = none) (hd : decodeCommand s.cfg w = none) :
    issue w s = .next (s.raise .illegalCommand w) := by
  cases hshape : decode w with
  | error e =>
    rcases rejectWord_cases w s with ⟨hf', -⟩ | ⟨-, he⟩
    · exact absurd hf hf'
    · exact (issue_of_decode_eq_error s hshape).trans he
  | ok i =>
    have hl : ¬ legal s.cfg i = true := fun hl =>
      Option.eq_none_iff_forall_ne_some.1 hd i ((decodeCommandIsShapeAndLegality s.cfg w i).2 ⟨hshape, hl⟩)
    exact issue_of_check_eq_raise hshape (check_eq_raise_illegalCommand hf hl)

/-- `ISSUE` of a legal command before any load since reset (R180). -/
theorem issue_of_vramNotLoaded {w : Word} {c : Instr} {s : State} (hf : s.fault = none)
    (hd : decodeCommand s.cfg w = some c) (hv : s.vram = none) : issue w s = .next (s.raise .vramNotLoaded w) := by
  obtain ⟨hshape, hl⟩ := (decodeCommandIsShapeAndLegality s.cfg w c).1 hd
  exact issue_of_check_eq_raise hshape (check_eq_raise_vramNotLoaded hf hl hv)

/-- `ISSUE` of a legal command that would read beyond VRAM (R181). -/
theorem issue_of_vramOutOfRange {w : Word} {c : Instr} {s : State} {v : Vram} (hf : s.fault = none)
    (hd : decodeCommand s.cfg w = some c) (hv : s.vram = some v) (ht : 512 < directTiles c) :
    issue w s = .next (s.raise .vramOutOfRange w) := by
  obtain ⟨hshape, hl⟩ := (decodeCommandIsShapeAndLegality s.cfg w c).1 hd
  exact issue_of_check_eq_raise hshape (check_eq_raise_vramOutOfRange hf hl hv ht)

/-- `ISSUE` of a command that passes the check runs its pass, which completes and raises nothing (R177, R182). -/
theorem issue_completes {w : Word} {c : Instr} {s : State} {v : Vram} (hf : s.fault = none)
    (hd : decodeCommand s.cfg w = some c) (hv : s.vram = some v) (ht : directTiles c ≤ 512) :
    ∃ t, issue w s = .next t ∧ exec c s = .next t ∧ t.fault = none ∧
      t.outW.toNat = (outputSize c).1 ∧ t.outH.toNat = (outputSize c).2 := by
  obtain ⟨hshape, hl⟩ := (decodeCommandIsShapeAndLegality s.cfg w c).1 hd
  obtain ⟨t, hexec, -, hw, hh, hfault, -⟩ := exec_completes hf hv hl ht
  exact ⟨t, (issue_of_decode_eq_ok s hshape).trans hexec, hexec, hfault.trans hf, hw, hh⟩

/-! ## The two reads (R173, R174) -/

/-- No register is readable under number 0 or above 3 (R35). -/
theorem State.register_eq_none {r : Nat} (s : State) (h : r = 0 ∨ 3 < r) : s.register r = none := by
  unfold State.register
  rw [if_neg (by omega), if_neg (by omega), if_neg (by omega)]

/-- `READ_REG` of a readable register returns it. -/
theorem step_readReg {s : State} {r : Nat} {rest : List Transaction} {w : Word} (hp : s.pending = .readReg r :: rest)
    (hr : s.register r = some w) : step s = .next { s with pending := rest, reply := some w } := by
  have hr' : (s.nextTransaction rest).register r = some w := hr
  rw [step_of_pending_cons hp, perform, readReg, hr']
  rfl

/-- `READ_REG` of any other number is refused under that number (U11, log 7). -/
theorem step_readReg_refused {s : State} {r : Nat} {rest : List Transaction} (hp : s.pending = .readReg r :: rest)
    (h : r = 0 ∨ 3 < r) : step s = .refused (.readRegUndefined r) := by
  rw [step_of_pending_cons hp, perform, readReg, State.register_eq_none _ h]

/-- `READ_FB` of a word that holds a value returns it. -/
theorem step_readFb {s : State} {i : Nat} {rest : List Transaction} {w : Word} (hp : s.pending = .readFb i :: rest)
    (hi : i < 131072) (hw : fbWord s.fb i = some w) : step s = .next { s with pending := rest, reply := some w } := by
  rw [step_of_pending_cons hp, perform, readFb, if_pos hi, State.nextTransaction_fb, hw]
  rfl

/-- `READ_FB` of a word that holds no value is refused under its index (U8, log 7). -/
theorem step_readFb_noValue {s : State} {i : Nat} {rest : List Transaction} (hp : s.pending = .readFb i :: rest)
    (hi : i < 131072) (hw : fbWord s.fb i = none) : step s = .refused (.readFbNoValue i) := by
  rw [step_of_pending_cons hp, perform, readFb, if_pos hi, State.nextTransaction_fb, hw]

/-- `READ_FB` outside the framebuffer is refused under its index (U10, log 7). -/
theorem step_readFb_outOfRange {s : State} {i : Nat} {rest : List Transaction} (hp : s.pending = .readFb i :: rest)
    (hi : 131072 ≤ i) : step s = .refused (.readFbOutOfRange i) := by
  rw [step_of_pending_cons hp, perform, readFb, if_neg (Nat.not_lt.2 hi)]

/-! ## `LOAD_VRAM` (R171) -/

/-- `LOAD_VRAM` of 8192 bytes replaces VRAM and leaves the rest of the block alone. -/
theorem step_loadVram {s : State} {buf : List Byte} {rest : List Transaction} (hp : s.pending = .loadVram buf :: rest)
    (hl : buf.length = 8192) : step s = .next ((s.nextTransaction rest).loadBuffer buf) := by
  rw [step_of_pending_cons hp, perform, loadVram, if_pos hl]

/-- `LOAD_VRAM` of any other length is refused under that length (U12, log 7). -/
theorem step_loadVram_refused {s : State} {buf : List Byte} {rest : List Transaction}
    (hp : s.pending = .loadVram buf :: rest) (hl : buf.length ≠ 8192) :
    step s = .refused (.loadVramWrongLength buf.length) := by
  rw [step_of_pending_cons hp, perform, loadVram, if_neg hl]

/-- `MemRead` of a loaded buffer gives the buffer's byte. -/
theorem memRead_vramOfBytes {buf : List Byte} (hl : buf.length = 8192) {a : Nat} (ha : a < buf.length) :
    memRead (vramOfBytes 0 buf) (a : Int) = .ok buf[a] := by
  have hbyte := cellAt_vramOfBytes buf 0 a ha
  rw [Nat.zero_add] at hbyte
  rw [memRead_ok (by omega) (by omega), vramByte, Int.toNat_natCast, hbyte]

end Sys2Proof.Machine

/-! PROOFS. Faults: where a step changes the fault record, what the record says of its word, and which states are final
(60_exceptions.md R175 to R191, 70_reset_and_hazards.md R209). -/

namespace Sys2Proof.Machine

/-! ## What a step does to the fault record (R176, R178) -/

/-- The step from `s` to `t` raises a fault (R176): it is an `ISSUE` of the word that is recorded, made with no fault recorded;
nothing but the record changes, and the record is true of the word. -/
def RaisesFault (s t : State) : Prop :=
  s.fault = none ∧ ∃ w rest cause, s.pending = .issue w :: rest ∧ t = (s.nextTransaction rest).raise cause w ∧
    t.FaultRecordTrue

/-- The record of cause 1 is true of an illegal word. -/
theorem State.faultRecordTrue_raise_illegalCommand {s : State} {w : Word} (h : decodeCommand s.cfg w = none) :
    (s.raise .illegalCommand w).FaultRecordTrue := by
  intro f hf
  cases hf
  exact h

/-- The record of cause 2 is true of a legal command. -/
theorem State.faultRecordTrue_raise_vramNotLoaded {s : State} {w : Word} {c : Instr} (h : decodeCommand s.cfg w = some c) :
    (s.raise .vramNotLoaded w).FaultRecordTrue := by
  intro f hf
  cases hf
  exact ⟨c, h⟩

/-- The record of cause 3 is true of a command that reads beyond VRAM. -/
theorem State.faultRecordTrue_raise_vramOutOfRange {s : State} {w : Word} {c : Instr} (h : decodeCommand s.cfg w = some c)
    (ht : 512 < directTiles c) : (s.raise .vramOutOfRange w).FaultRecordTrue := by
  intro f hf
  cases hf
  obtain ⟨n, gw, gh, pr, rfl, htiles⟩ := lt_directTiles_iff.1 ht
  exact ⟨n, gw, gh, pr, h, htiles⟩

/-- An `ISSUE` leaves the fault record alone, or writes one that is true of its word and changes nothing else. -/
theorem issue_fault_cases {w : Word} {s t : State} (h : issue w s = .next t) :
    t.fault = s.fault ∨ (s.fault = none ∧ ∃ cause, t = s.raise cause w ∧ t.FaultRecordTrue) := by
  by_cases hf : s.fault ≠ none
  · cases (issue_of_fault w hf).symm.trans h
    exact .inl rfl
  rw [not_not] at hf
  cases hd : decodeCommand s.cfg w with
  | none =>
    cases (issue_of_illegal hf hd).symm.trans h
    exact .inr ⟨hf, _, rfl, State.faultRecordTrue_raise_illegalCommand hd⟩
  | some c =>
    cases hv : s.vram with
    | none =>
      cases (issue_of_vramNotLoaded hf hd hv).symm.trans h
      exact .inr ⟨hf, _, rfl, State.faultRecordTrue_raise_vramNotLoaded hd⟩
    | some v =>
      rcases lt_or_ge 512 (directTiles c) with ht | ht
      · cases (issue_of_vramOutOfRange hf hd hv ht).symm.trans h
        exact .inr ⟨hf, _, rfl, State.faultRecordTrue_raise_vramOutOfRange hd ht⟩
      · obtain ⟨u, hissue, -, hfault, -⟩ := issue_completes hf hd hv ht
        cases hissue.symm.trans h
        exact .inl (hfault.trans hf.symm)

/-- A step that makes an `ISSUE` leaves the fault record alone or raises a fault. -/
theorem step_issue_fault_cases {s t : State} {w : Word} {rest : List Transaction} (hp : s.pending = .issue w :: rest)
    (h : step s = .next t) : t.fault = s.fault ∨ RaisesFault s t := by
  have hissue : issue w (s.nextTransaction rest) = .next t := (step_of_pending_cons hp).symm.trans h
  rcases issue_fault_cases hissue with hsame | ⟨hf, cause, ht, htrue⟩
  · exact .inl hsame
  · exact .inr ⟨hf, w, rest, cause, hp, ht, htrue⟩

/-- Everything a step that answers can do to the fault record: leave it alone, clear it by a `RESET`, or write it by an `ISSUE`
that raises a fault. -/
theorem step_fault_cases {s t : State} (h : step s = .next t) :
    t.fault = s.fault ∨ (t.fault = none ∧ ∃ rest, s.pending = .reset :: rest) ∨ RaisesFault s t := by
  rcases step_cases h with ⟨-, rfl⟩ | ⟨rest, ⟨hp, rfl⟩ | ⟨_, -, -, rfl⟩ | ⟨_, _, hp, -⟩ | ⟨_, _, hp, -⟩ | ⟨_, _, -, -, rfl⟩ |
    ⟨_, _, -, -, -, rfl⟩⟩
  · exact .inl rfl
  · exact .inr (.inl ⟨State.resetBlock_fault _, rest, hp⟩)
  · exact .inl (State.loadBuffer_fault _ _)
  · exact (step_issue_fault_cases hp h).imp_right .inr
  · exact (step_issue_fault_cases hp h).imp_right .inr
  · exact .inl (State.answer_fault _ _)
  · exact .inl (State.answer_fault _ _)

/-- Whether the record is true depends on the record and the configuration only. -/
theorem State.FaultRecordTrue.congr {s t : State} (h : s.FaultRecordTrue) (hf : t.fault = s.fault) (hc : t.cfg = s.cfg) :
    t.FaultRecordTrue := by
  intro f hs
  rw [hc]
  exact h f (hf.symm.trans hs)

/-- Settles O40: a record that stays is read on the same configuration, a cleared one says nothing, and a raised one is true of
the issued word by the test that raised it. -/
theorem stepKeepsFaultRecordTrue : Obligations.StepKeepsFaultRecordTrue := by
  intro s t htrue hstep
  rcases step_fault_cases hstep with hsame | ⟨hcleared, -⟩ | ⟨-, _, _, _, -, -, hraised⟩
  · exact htrue.congr hsame (configurationNeverChanges s t hstep)
  · exact State.faultRecordTrue_of_none hcleared
  · exact hraised

/-- A recorded fault stays the one recorded until a `RESET` clears it (R178). -/
theorem step_keeps_fault {s t : State} {f : FaultRecord} (hf : s.fault = some f) (h : step s = .next t) :
    t.fault = some f ∨ (t.fault = none ∧ ∃ rest, s.pending = .reset :: rest) := by
  rcases step_fault_cases h with hsame | hreset | ⟨hnone, -⟩
  · exact .inl (hsame.trans hf)
  · exact .inr hreset
  · cases hf.symm.trans hnone

/-! ## Commands -/

/-- Settles O25: the three things a command can do; a completed pass leaves its size in `DIMS`. -/
theorem faultsArePrecise : Obligations.FaultsArePrecise := by
  intro i s t h
  rcases exec_cases i s with ⟨hf, he⟩ | ⟨hf, cause, he⟩ | ⟨hf, hl, ht, ⟨v, hv⟩, -⟩
  · cases he.symm.trans h
    exact .inl ⟨hf, rfl⟩
  · cases he.symm.trans h
    exact .inr (.inl ⟨hf, cause, rfl⟩)
  · obtain ⟨u, he, -, hw, hh, hfault, -⟩ := exec_completes hf hv hl ht
    cases he.symm.trans h
    exact .inr (.inr ⟨hf, hfault.trans hf, hw, hh⟩)

/-- Settles O27: the verdict of the check phase in each of the four cases. -/
theorem commandTraps : Obligations.CommandTraps := by
  intro i s
  refine ⟨exec_of_fault i, fun hf hl => ?_, fun hf hl hv => ?_, ?_⟩
  · exact exec_of_check_eq_raise (check_eq_raise_illegalCommand hf hl)
  · exact exec_of_check_eq_raise (check_eq_raise_vramNotLoaded hf hl hv)
  · rintro v n gw gh pr rfl hf hl hv ht
    exact exec_of_check_eq_raise (check_eq_raise_vramOutOfRange hf hl hv ht)

/-! ## `ISSUE` -/

/-- Settles O29: a step is the `ISSUE` on the state in which the host's list has moved on, which has the same fault,
configuration and VRAM. -/
theorem issueRunsTheCheckInOrder : Obligations.IssueRunsTheCheckInOrder := by
  constructor
  · intro s w rest hp
    have hstep : step s = issue w (s.nextTransaction rest) := step_of_pending_cons hp
    refine ⟨fun hf => ?_, fun hf hd => ?_, fun c hf hd hv => ?_, fun n gw gh pr v hf hd hv ht => ?_, fun c v hf hd hv ht => ?_⟩
    · exact hstep.trans (issue_of_fault w hf)
    · exact hstep.trans (issue_of_illegal hf hd)
    · exact hstep.trans (issue_of_vramNotLoaded hf hd hv)
    · exact hstep.trans (issue_of_vramOutOfRange hf hd hv ht)
    · rw [hstep]
      exact issue_completes (s := s.nextTransaction rest) hf hd hv (directTiles_le_iff.2 ht)
  · intro s t f hf h
    exact (step_keeps_fault hf h).imp_right And.right

/-- Settles O30: the first test of an `ISSUE`, and what a step does to a record. -/
theorem faultIsSticky : Obligations.FaultIsSticky := by
  intro s f hf
  refine ⟨fun w rest hp => ?_, fun t h => step_keeps_fault hf h, fun rest hp => ⟨_, step_reset hp, rfl⟩⟩
  exact (step_of_pending_cons hp).trans (issue_of_fault w (by simp [hf]))

/-- Settles O28: the equations of a step; the word of `withFetchWord` stands first in the host's list. -/
theorem stepRunsTheIssuedCommand : Obligations.StepRunsTheIssuedCommand := by
  have hissue : ∀ (s : State) (w : Word) (rest : List Transaction) (i : Instr), s.pending = .issue w :: rest →
      decode w = .ok i → step s = exec i (s.nextTransaction rest) := fun s w rest i hp hd =>
    (step_of_pending_cons hp).trans (issue_of_decode_eq_ok _ hd)
  refine ⟨hissue, fun s t rest => step_of_pending_cons, fun s => step_of_pending_nil, fun s w i h => ?_⟩
  have hd : decode (tableWord 32 w) = .ok i := by
    unfold decodeTableWord at h
    cases hshape : decode (tableWord 32 w) with
    | error e => simp [hshape] at h
    | ok j => simpa [hshape] using h
  exact hissue (s.withFetchWord 32 w) _ s.pending i rfl hd

/-! ## The other transactions -/

/-- Settles O33: the loaded buffer byte for byte, and the refusal of any other length. -/
theorem loadVramReplacesEveryByte : Obligations.LoadVramReplacesEveryByte := by
  intro s buf rest hp
  refine ⟨fun hl => ?_, fun hl => step_loadVram_refused hp hl⟩
  exact ⟨_, _, step_loadVram hp hl, State.loadBuffer_vram _ _, fun a ha => memRead_vramOfBytes hl ha,
    rfl, rfl, rfl, rfl, rfl, rfl⟩

/-- Settles O34: the three readable registers, and the numbers that are none. -/
theorem readRegReturnsTheRegister : Obligations.ReadRegReturnsTheRegister := by
  intro s r rest hp
  refine ⟨?_, ?_, ?_, step_readReg_refused hp⟩
  · rintro rfl
    exact step_readReg hp rfl
  · rintro rfl
    exact step_readReg hp rfl
  · rintro rfl
    exact step_readReg hp rfl

/-- Settles O35: the three answers of a read of the framebuffer. -/
theorem readFbReturnsTheWord : Obligations.ReadFbReturnsTheWord := by
  intro s i rest hp
  refine ⟨fun w hi hw => ?_, fun hi hw => ?_, fun hi => ?_⟩
  · exact step_readFb hp (Nat.lt_succ_of_le hi) hw
  · exact step_readFb_noValue hp (Nat.lt_succ_of_le hi) hw
  · exact step_readFb_outOfRange hp hi

/-! ## No step is a stop of the model (R183, log 11) -/

/-- Every `ISSUE` returns: it ends in a next state (R172). -/
theorem exists_issue_eq_next (w : Word) (s : State) : ∃ t, issue w s = .next t := by
  cases hd : decode w with
  | error e =>
    rw [issue_of_decode_eq_error s hd]
    rcases rejectWord_cases w s with ⟨-, he⟩ | ⟨-, he⟩
    · exact ⟨_, he⟩
    · exact ⟨_, he⟩
  | ok i =>
    rw [issue_of_decode_eq_ok s hd]
    exact everyCommandTerminates i s

/-- No transaction is a stop of the model: a read and a load answer or are refused, and an `ISSUE` returns. -/
theorem perform_safe (tr : Transaction) (s : State) : Safe (perform tr s) := by
  intro e h
  cases tr with
  | reset => cases h
  | loadVram buf =>
    simp only [perform, loadVram] at h
    split_ifs at h
  | issue w =>
    obtain ⟨t, ht⟩ := exists_issue_eq_next w s
    cases ht.symm.trans h
  | readReg r =>
    simp only [perform, readReg] at h
    split at h <;> cases h
  | readFb i =>
    simp only [perform, readFb] at h
    split_ifs at h
    split at h <;> cases h

/-- Settles O44: an idle step answers, and any other performs a transaction. -/
theorem noAccessOutsideTheMemories : Obligations.NoAccessOutsideTheMemories := by
  intro s
  cases hp : s.pending with
  | nil =>
    rw [step_of_pending_nil hp]
    exact nofun
  | cons tr rest =>
    rw [step_of_pending_cons hp]
    exact perform_safe tr _

/-! ## The outcomes of a step (R191) -/

/-- A step that answers with no record, or from a state that had one, is a real step. -/
theorem stepOutcome_eq_effect {s t : State} (h : step s = .next t) (hf : s.fault ≠ none ∨ t.fault = none) :
    stepOutcome s = .effect t :=
  outcomeFrom_eq_effect_iff.2 ⟨h, hf⟩

/-- A step that answers with a record where there was none is a fault outcome. -/
theorem stepOutcome_eq_fault {s t : State} {f : FaultRecord} (h : step s = .next t) (hs : s.fault = none)
    (ht : t.fault = some f) : stepOutcome s = .fault f t :=
  outcomeFrom_eq_fault_iff.2 ⟨h, hs, ht⟩

/-- A refused step is no move. -/
theorem stepOutcome_eq_noMove {s : State} {r : Refusal} (h : step s = .refused r) : stepOutcome s = .noMove r := by
  rw [stepOutcome, h, outcomeFrom_refused]

/-- An outcome is a stop only of a stop. -/
theorem eq_fault_of_outcomeFrom_eq_stop {s : State} {o : Host.Outcome State Fault Refusal} {e : Fault}
    (h : outcomeFrom s o = .stop e) : o = .fault e := by
  cases o with
  | next t =>
    rw [outcomeFrom] at h
    split at h <;> cases h
  | fault e' =>
    rw [outcomeFrom_stop] at h
    cases h
    rfl
  | refused r => cases h

/-- A fault outcome is an `ISSUE` of the recorded word that changes nothing but the record (R176). -/
theorem of_stepOutcome_eq_fault {s t : State} {f : FaultRecord} (h : stepOutcome s = .fault f t) :
    ∃ rest, s.pending = .issue f.cmd :: rest ∧ t = { s with pending := rest, reply := none, fault := some f } := by
  obtain ⟨hstep, hs, ht⟩ := outcomeFrom_eq_fault_iff.1 h
  rcases step_fault_cases hstep with hsame | ⟨hcleared, -⟩ | ⟨-, w, rest, cause, hp, rfl, -⟩
  · cases (hsame.trans hs).symm.trans ht
  · cases hcleared.symm.trans ht
  · cases ht
    exact ⟨rest, hp, rfl⟩

/-- Settles O53: the outcomes of the steps of O29 and of the refused reads; a fault outcome is a raised fault, and no step is a
stop. -/
theorem faultIsAFaultOutcome : Obligations.FaultIsAFaultOutcome := by
  refine ⟨fun s w rest hp => ?issue, fun s t f => of_stepOutcome_eq_fault, fun s r rest hp hr => ?readReg,
    fun s i rest hp => ⟨fun hi hw => ?noValue, fun hi => ?outOfRange⟩, fun s e h => ?stop⟩
  case issue =>
    obtain ⟨hignored, hillegal, hnotLoaded, hrange, hcompletes⟩ := issueRunsTheCheckInOrder.1 s w rest hp
    refine ⟨fun hf => ?_, fun hf hd => ?_, fun c hf hd hv => ?_, fun n gw gh pr v hf hd hv ht => ?_, fun c v hf hd hv ht => ?_⟩
    · exact stepOutcome_eq_effect (hignored hf) (.inl hf)
    · exact stepOutcome_eq_fault (hillegal hf hd) hf rfl
    · exact stepOutcome_eq_fault (hnotLoaded c hf hd hv) hf rfl
    · exact stepOutcome_eq_fault (hrange n gw gh pr v hf hd hv ht) hf rfl
    · obtain ⟨t, hstep, -, hfault, -⟩ := hcompletes c v hf hd hv ht
      exact ⟨t, stepOutcome_eq_effect hstep (.inr hfault), hfault⟩
  case readReg => exact stepOutcome_eq_noMove (step_readReg_refused hp hr)
  case noValue => exact stepOutcome_eq_noMove (step_readFb_noValue hp (Nat.lt_succ_of_le hi) hw)
  case outOfRange => exact stepOutcome_eq_noMove (step_readFb_outOfRange hp hi)
  case stop => exact noAccessOutsideTheMemories s e (eq_fault_of_outcomeFrom_eq_stop h)

/-! ## Final states (R191, R209) -/

/-- A rejected word leaves the host's list alone. -/
theorem rejectWord_pending {w : Word} {s t : State} (h : rejectWord w s = .next t) : t.pending = s.pending := by
  rcases rejectWord_cases w s with ⟨-, he⟩ | ⟨-, he⟩
  · cases he.symm.trans h
    rfl
  · cases he.symm.trans h
    exact State.raise_pending s _ _

/-- A step that answers takes one transaction off the host's list, if there is one (log 1). -/
theorem step_pending {s t : State} (h : step s = .next t) : t.pending = s.pending.tail := by
  rcases step_cases h with ⟨hp, rfl⟩ | ⟨rest, ⟨hp, rfl⟩ | ⟨_, hp, -, rfl⟩ | ⟨_, _, hp, -, hreject⟩ | ⟨_, i, hp, -, hexec⟩ |
    ⟨_, _, hp, -, rfl⟩ | ⟨_, _, hp, -, -, rfl⟩⟩
  · rw [hp, List.tail_nil]
  · rw [hp, State.resetBlock_pending, State.nextTransaction_pending, List.tail_cons]
  · rw [hp, State.loadBuffer_pending, State.nextTransaction_pending, List.tail_cons]
  · rw [hp, rejectWord_pending hreject, State.nextTransaction_pending, List.tail_cons]
  · obtain ⟨-, -, hpending, -⟩ := commandFrame i _ t hexec
    rw [hp, hpending, State.nextTransaction_pending, List.tail_cons]
  · rw [hp, State.answer_pending, State.nextTransaction_pending, List.tail_cons]
  · rw [hp, State.answer_pending, State.nextTransaction_pending, List.tail_cons]

/-- The faulted state is never final (R191). -/
theorem State.final_eq_false_of_fault {s : State} {f : FaultRecord} (h : s.fault = some f) : s.final = false := by
  simp [State.final, h]

/-- However many steps follow a fault, none of them ends in a final state unless one of them is a `RESET`: the record and the
absence of a `RESET` are kept together by every step. -/
theorem finalAfter_eq_none_of_fault {s : State} {f : FaultRecord} (k : Nat) (hf : s.fault = some f)
    (hr : Transaction.reset ∉ s.pending) : finalAfter k s = none := by
  induction k generalizing s with
  | zero => simp [State.final_eq_false_of_fault hf]
  | succ k ih =>
    rw [finalAfter]
    cases hstep : step s with
    | next t =>
      have hr' : Transaction.reset ∉ t.pending := fun hmem => hr (List.mem_of_mem_tail (step_pending hstep ▸ hmem))
      rcases step_keeps_fault hf hstep with hf' | ⟨-, rest, hp⟩
      · exact ih hf' hr'
      · exact absurd (hp ▸ List.mem_cons_self) hr
    | fault e => rfl
    | refused r => rfl

/-- The run of a host with a transaction to make is the run from the next state. -/
theorem State.finalState_of_step {s t : State} {tr : Transaction} {rest : List Transaction} (hp : s.pending = tr :: rest)
    (h : step s = .next t) : s.finalState = t.finalState := by
  rw [State.finalState, State.finalState, step_pending h, hp, List.length_cons, List.tail_cons, finalAfter_succ h]

/-- A run of one transaction ends in its next state, which is final unless a fault is recorded. -/
theorem State.finalState_of_pending_singleton {s t : State} {tr : Transaction} (hp : s.pending = [tr])
    (h : step s = .next t) (hf : t.fault = none) : s.finalState = some t := by
  have ht : t.pending = [] := by rw [step_pending h, hp, List.tail_cons]
  rw [State.finalState_of_step hp h, State.finalState, ht, List.length_nil, finalAfter_zero,
    if_pos (t.final_iff.2 ⟨ht, hf⟩)]

/-- Settles O54: a fault stays recorded along a run without a `RESET`; the last state of a run is tested for being final; and a
run of one transaction that ends unfaulted ends final. -/
theorem faultedStateIsNeverFinal : Obligations.FaultedStateIsNeverFinal := by
  refine ⟨fun s f hf => ?faulted, fun s t f h => ?outcome, fun s t h => ?final, fun s hp => ?reset,
    fun s w c v hp hf hd hv ht => ?pass⟩
  case faulted => exact ⟨State.final_eq_false_of_fault hf, finalAfter_eq_none_of_fault _ hf⟩
  case outcome =>
    obtain ⟨hstep, -, hf⟩ := outcomeFrom_eq_fault_iff.1 h
    obtain ⟨rest, hp, -⟩ := of_stepOutcome_eq_fault h
    refine ⟨State.final_eq_false_of_fault hf, fun hr => ?_⟩
    rw [State.finalState_of_step hp hstep]
    exact finalAfter_eq_none_of_fault _ hf hr
  case final =>
    obtain ⟨hp, hf⟩ := t.final_iff.1 (finalAfter_final h)
    exact ⟨hf, hp, step_of_pending_nil hp⟩
  case reset => exact ⟨_, State.finalState_of_pending_singleton hp (step_reset hp) rfl, step_reset hp⟩
  case pass =>
    obtain ⟨-, -, -, -, hcompletes⟩ := issueRunsTheCheckInOrder.1 s w [] hp
    obtain ⟨t, hstep, -, hfault, -⟩ := hcompletes c v hf hd hv ht
    exact ⟨t, State.finalState_of_pending_singleton hp hstep hfault, hstep⟩

end Sys2Proof.Machine

/-! PROOFS. `RESET`, and reading back a completed pass (70_reset_and_hazards.md R195, R203). -/

namespace Sys2Proof.Machine

/-- Settles O31: a `RESET` step leaves the reset block, whose flags are read off the layout of `STATUS`; and a step keeps a
recorded fault unless it is a `RESET`. -/
theorem resetTransaction : Obligations.ResetTransaction := by
  refine ⟨fun s rest hp => ?reset, fun s t hs hstep ht => ?onlyReset⟩
  case reset =>
    obtain ⟨hfault, hloaded, hgray, -⟩ := (s.nextTransaction rest).resetBlock.status_flags
    exact ⟨_, step_reset hp, rfl, fun _ => rfl, rfl, rfl, State.dims_of_reset rfl, rfl, State.causeField_of_none rfl,
      State.fcmd_of_none rfl, hfault, hloaded, hgray, rfl, rfl⟩
  case onlyReset =>
    obtain ⟨f, hf⟩ := Option.ne_none_iff_exists'.1 hs
    rcases step_keeps_fault hf hstep with hkept | ⟨-, hreset⟩
    · cases hkept.symm.trans ht
    · exact hreset

/-- The output area of the last completed pass lies inside the framebuffer: it is at most 256 pixels wide and 512 high (R32). -/
theorem State.Inv.outputArea_le {s : State} (h : s.Inv) : s.outW.toNat * s.outH.toNat ≤ 131072 :=
  Nat.mul_le_mul h.widthLegal.2 h.heightLegal.2

/-- Settles O36: by the invariant a word of the output area lies inside the framebuffer and holds a value, so its read returns. -/
theorem outputAreaIsReadable : Obligations.OutputAreaIsReadable := by
  intro s i rest hinv hp hi
  obtain ⟨w, hw⟩ := Option.isSome_iff_exists.1 (hinv.areaHeld i hi)
  exact ⟨w, hw, step_readFb hp (hi.trans_le hinv.outputArea_le) hw⟩

end Sys2Proof.Machine

/-! PROOFS. Every step keeps the memories canonical, `DIMS` legal and its output area holding values (10_state.md R25, R27, R32;
70_reset_and_hazards.md R203). -/

namespace Sys2Proof.Machine

/-- The invariant speaks of the two memories and of `DIMS` only. -/
theorem State.Inv.congr {s t : State} (h : s.Inv) (hv : t.vram = s.vram) (hfb : t.fb = s.fb) (hw : t.outW = s.outW)
    (hh : t.outH = s.outH) : t.Inv where
  vramCanonical := hv ▸ h.vramCanonical
  fbCanonical := hfb ▸ h.fbCanonical
  widthLegal := hw ▸ h.widthLegal
  heightLegal := hh ▸ h.heightLegal
  dimsTogether := hw ▸ hh ▸ h.dimsTogether
  areaHeld := hfb ▸ hw ▸ hh ▸ h.areaHeld

/-- The host's bookkeeping keeps the invariant. -/
theorem State.Inv.nextTransaction {s : State} (h : s.Inv) (rest : List Transaction) : (s.nextTransaction rest).Inv :=
  h.congr rfl rfl rfl rfl

/-- Recording a fault keeps the invariant (R176). -/
theorem State.Inv.raise {s : State} (h : s.Inv) (cause : Cause) (w : Word) : (s.raise cause w).Inv :=
  h.congr rfl rfl rfl rfl

/-- A read keeps the invariant (R173, R174). -/
theorem State.Inv.answer {s : State} (h : s.Inv) (w : Word) : (s.answer w).Inv :=
  h.congr rfl rfl rfl rfl

/-- A `RESET` makes the invariant hold, from every state (R195). -/
theorem State.resetBlock_inv (s : State) : s.resetBlock.Inv :=
  State.reset_inv.congr rfl rfl rfl rfl

/-- A load of a whole buffer keeps the invariant (R171). -/
theorem State.Inv.loadBuffer {s : State} (h : s.Inv) {buf : List Byte} (hl : buf.length = 8192) : (s.loadBuffer buf).Inv where
  vramCanonical v hv := by
    rw [State.loadBuffer_vram, Option.some.injEq] at hv
    exact hv ▸ vramWf_loaded hl
  fbCanonical := h.fbCanonical
  widthLegal := h.widthLegal
  heightLegal := h.heightLegal
  dimsTogether := h.dimsTogether
  areaHeld := h.areaHeld

/-- The end of a pass keeps the invariant: `DIMS` is the size of the pass's own output area, whose every word it has written
(R151). -/
theorem State.Inv.completePass {i : Instr} {s : State} {fb : Fb} (h : s.Inv) (hl : legal s.cfg i = true)
    (hleaves : PassLeaves i s fb) : (s.completePass fb (outputSize i).1 (outputSize i).2).Inv := by
  obtain ⟨hheld, -, hcanonical⟩ := hleaves
  obtain ⟨hw8, hw0, hw, hh8, hh0, hh⟩ := outputSize_range hl
  obtain ⟨houtW, houtH⟩ := completePass_dims s fb (show (outputSize i).1 < 1024 by omega) (show (outputSize i).2 < 1024 by omega)
  have hne {x : BitVec 10} (hx : 0 < x.toNat) : x ≠ 0#10 := by
    rintro rfl
    exact absurd hx (by decide)
  exact {
    vramCanonical := h.vramCanonical
    fbCanonical := hcanonical h.fbCanonical
    widthLegal := by rw [houtW]; exact ⟨hw8, hw⟩
    heightLegal := by rw [houtH]; exact ⟨hh8, hh⟩
    dimsTogether := iff_of_false (hne (hw0.trans_eq houtW.symm)) (hne (hh0.trans_eq houtH.symm))
    areaHeld := by rw [houtW, houtH]; exact hheld }

/-- A rejected word keeps the invariant, ignored or recorded. -/
theorem rejectWord_inv {w : Word} {s t : State} (hs : s.Inv) (h : rejectWord w s = .next t) : t.Inv := by
  rcases rejectWord_cases w s with ⟨-, he⟩ | ⟨-, he⟩
  · cases he.symm.trans h
    exact hs
  · cases he.symm.trans h
    exact hs.raise _ _

/-- A command keeps the invariant, whether it is ignored, faults or completes its pass. -/
theorem exec_inv {i : Instr} {s t : State} (hs : s.Inv) (h : exec i s = .next t) : t.Inv := by
  rcases exec_cases i s with ⟨-, he⟩ | ⟨-, cause, he⟩ | ⟨-, hl, -, -, fb, he, hleaves⟩
  · cases he.symm.trans h
    exact hs
  · cases he.symm.trans h
    exact hs.raise _ _
  · cases he.symm.trans h
    exact hs.completePass hl hleaves

/-- Settles O39: each thing a step can do keeps the invariant. -/
theorem stepKeepsMemoryAndDims : Obligations.StepKeepsMemoryAndDims := by
  intro s t hinv hstep
  rcases step_cases hstep with ⟨-, rfl⟩ | ⟨rest, ⟨-, rfl⟩ | ⟨_, -, hl, rfl⟩ | ⟨_, _, -, -, hreject⟩ | ⟨_, _, -, -, hexec⟩ |
    ⟨_, _, -, -, rfl⟩ | ⟨_, _, -, -, -, rfl⟩⟩
  · exact hinv
  · exact State.resetBlock_inv _
  · exact (hinv.nextTransaction rest).loadBuffer hl
  · exact rejectWord_inv (hinv.nextTransaction rest) hreject
  · exact exec_inv (hinv.nextTransaction rest) hexec
  · exact (hinv.nextTransaction rest).answer _
  · exact (hinv.nextTransaction rest).answer _

end Sys2Proof.Machine

/-! PROOFS. The derived properties of the resolver (41_tilemap_address_resolver.md R125, R128, R130, R131; 20_memory.md R62). -/

namespace Sys2Proof.Machine

/-- Flipping the sign bit of a byte adds 128 to its signed value; a byte has 256 values, all of which are tried. -/
theorem toNat_xor_signBit (b : Byte) : ((b ^^^ 0x80#8).toNat : Int) = sext8 b + 128 := by
  revert b
  decide

/-- Bit 7 of a byte splits its values at 0x80. -/
theorem getLsbD_seven (b : Byte) : b.getLsbD 7 = decide (128 ≤ b.toNat) :=
  b.msb_eq_getLsbD_last.symm.trans b.msb_eq_decide

/-- From entry 0x80 up signed addressing is the entry times 16 (R62 (a)). -/
theorem resSigned_of_le (c : Config) {b : Byte} (h : 128 ≤ b.toNat) : resSigned c b = 16 * (b.toNat : Int) := by
  rw [resSigned_eq, sext8_of_le h]
  omega

/-- Below entry 0x80 signed addressing is 0x1000 above the entry times 16 (R62 (a)). -/
theorem resSigned_of_lt (c : Config) {b : Byte} (h : b.toNat < 128) : resSigned c b = 16 * (b.toNat : Int) + 0x1000 := by
  rw [resSigned_eq, sext8_of_lt h]
  omega

/-- Settles O6: the forms are `resUnsigned_eq` and the two halves of `resSigned`; the cells of the maps and the tiles of their
entries lie inside VRAM, where `memRead_ok` answers. -/
theorem resolverWindowsAndForms : Obligations.ResolverWindowsAndForms := by
  refine ⟨fun b => ?direct, fun c b => ⟨?shift, ?xor, fun h => ?bitSet, fun h => ?bitClear⟩,
    fun c b => ⟨fun h => ⟨resSigned_of_le c h, resUnsigned_eq b⟩, fun h => ?apart⟩, fun x y hx hy => ?cells,
    fun v ms x y hx hy => ⟨_, mapEntry_ok v ?entry⟩, fun v x y hx hy => ⟨_, mapEntry_ok v ?dualEntry⟩,
    fun c v sg b k => ⟨_, memRead_ok ?lower ?upper⟩⟩
  case direct => rw [resUnsigned_eq, resDirect_eq]
  case shift =>
    rw [resUnsigned_eq, Nat.shiftLeft_eq]
    omega
  case xor =>
    have hflip := toNat_xor_signBit b
    rw [resSigned_eq, Nat.shiftLeft_eq]
    omega
  case bitSet =>
    rw [getLsbD_seven, decide_eq_true_eq] at h
    rw [resSigned_of_le c h, Nat.shiftLeft_eq]
    omega
  case bitClear =>
    rw [getLsbD_seven, decide_eq_false_iff_not, Nat.not_le] at h
    rw [resSigned_of_lt c h, Nat.shiftLeft_eq]
    omega
  case apart => rw [resolve, resolve, resSigned_of_lt c h, resUnsigned_eq]
  case cells =>
    simp only [mapBase, Config.mapBase0, Config.mapBase1]
    omega
  case entry => cases ms <;> simp only [mapBase, Config.mapBase0, Config.mapBase1] <;> omega
  case dualEntry => omega
  case lower | upper =>
    obtain ⟨hlow, hhigh⟩ := resolve_range c sg b
    omega

end Sys2Proof.Machine

/-! PROOFS. Placement is one to one and onto, and the numbers of framebuffer writes (43_frame_rasterizer.md R149;
70_reset_and_hazards.md R208). -/

namespace Sys2Proof.Machine

/-! ## Placement (R149) -/

/-- For one width two placements with the same index are the same: the index determines its pixel row and column, and these
their tile and their place in it. -/
theorem fbIndex_inj {gw tx ty tx' ty' : Nat} {r col r' col' : Fin 8} (htx : tx < gw) (htx' : tx' < gw)
    (h : fbIndex (8 * gw) tx ty r col = fbIndex (8 * gw) tx' ty' r' col') : tx = tx' ∧ ty = ty' ∧ r = r' ∧ col = col' := by
  have hrow : ty * 8 + r.val = ty' * 8 + r'.val := by rw [← fbIndex_div r col htx, h, fbIndex_div r' col' htx']
  have hcol : tx * 8 + col.val = tx' * 8 + col'.val := by rw [← fbIndex_mod r col htx, h, fbIndex_mod r' col' htx']
  rw [Fin.ext_iff, Fin.ext_iff]
  omega

/-- A pixel is placed by the quotients and remainders of its coordinates by 8. -/
theorem fbIndex_of_pixel (outW px py : Nat) : fbIndex outW (px / 8) (py / 8) (mod8 py) (mod8 px) = py * outW + px := by
  simp only [fbIndex, mod8, Nat.div_add_mod']

/-- Settles O9: `fbIndex_inj`, and the placement of each pixel, which is then its only one. -/
theorem placementIsOneToOne : Obligations.PlacementIsOneToOne :=
  fun _ => ⟨fun _ _ _ _ _ _ _ _ htx htx' h => fbIndex_inj htx htx' h, fun px py hpx =>
    ⟨fbIndex_of_pixel _ px py, fun _ _ _ _ htx h =>
      fbIndex_inj htx (Nat.div_lt_of_lt_mul hpx) (h.trans (fbIndex_of_pixel _ px py).symm)⟩⟩

/-! ## The numbers of writes (R208) -/

/-- A walk's writes depend on which tiles of its grid are drawn, and on nothing outside the grid. -/
theorem gridWrites_congr {gw gh : Nat} {drawn drawn' : Nat → Nat → Bool} (px : Nat → Nat → Fin 8 → Fin 8 → Word)
    (h : ∀ tx < gw, ∀ ty < gh, drawn tx ty = drawn' tx ty) : gridWrites gw gh drawn px = gridWrites gw gh drawn' px := by
  refine List.flatMap_congr fun ty hty => List.flatMap_congr fun tx htx => ?_
  rw [h tx (List.mem_range.1 htx) ty (List.mem_range.1 hty)]

/-- A row of `k` tiles with rising ids from `base` makes 64 writes for each id below `n`. -/
theorem length_rowWrites (outW ty base n k : Nat) (px : Nat → Fin 8 → Fin 8 → Word) :
    ((List.range k).flatMap fun tx => if base + tx < n then tileWrites outW tx ty (px tx) else []).length =
      64 * min (n - base) k := by
  induction k with
  | zero => simp
  | succ k ih =>
    rw [List.range_succ, List.flatMap_append, List.length_append, ih, List.flatMap_singleton, apply_ite List.length,
      length_tileWrites, List.length_nil]
    split_ifs <;> omega

/-- A walk that draws the tiles with an id below `n` makes 64 writes for each of them that is in the grid. -/
theorem length_gridWrites_lt (n gw gh : Nat) (px : Nat → Nat → Fin 8 → Fin 8 → Word) :
    (gridWrites gw gh (fun tx ty => decide (ty * gw + tx < n)) px).length = 64 * min n (gw * gh) := by
  simp only [gridWrites, decide_eq_true_eq]
  induction gh with
  | zero => simp
  | succ gh ih =>
    rw [List.range_succ, List.flatMap_append, List.length_append, ih, List.flatMap_singleton, length_rowWrites, Nat.mul_succ,
      Nat.mul_comm gh]
    omega

/-- A walk that draws every tile draws those with an id below the size of its grid. -/
theorem gridWrites_all (gw gh : Nat) (px : Nat → Nat → Fin 8 → Fin 8 → Word) {n : Nat} (hn : gw * gh ≤ n) :
    gridWrites gw gh (fun tx ty => decide (ty * gw + tx < n)) px = gridWrites gw gh (fun _ _ => true) px :=
  gridWrites_congr px fun _ htx _ hty => decide_eq_true ((id_lt htx hty).trans_le hn)

theorem length_gridWrites_all (gw gh : Nat) (px : Nat → Nat → Fin 8 → Fin 8 → Word) :
    (gridWrites gw gh (fun _ _ => true) px).length = 64 * (gw * gh) := by
  rw [← gridWrites_all gw gh px le_rfl, length_gridWrites_lt, Nat.min_self]

/-- Settles O15: the prefill is one write a word, and each walk is a grid of writes, 64 for each tile it draws. -/
theorem writeCounts : Obligations.WriteCounts := by
  refine ⟨fun c gw gh => ?prefill, fun c v ms sg pr => ⟨_, walk_dmapCell c v ms sg pr, length_gridWrites_all 32 32 _⟩,
    fun c v pr => ⟨_, walk_ddualCell c v pr, length_gridWrites_all 32 64 _⟩,
    fun c v n gw gh pr h => ⟨_, walk_dtileCell c v pr h, length_gridWrites_lt n gw gh _⟩⟩
  case prefill =>
    rw [length_prefill]
    ring

end Sys2Proof.Machine

/-! PROOFS. Derived properties of the three commands: `DDUAL` as two `DMAP`s, where the sentinel is left, and the corner cases
of `DTILE` (43_frame_rasterizer.md R153, R156, R159). -/

namespace Sys2Proof.Machine

/-! ## `DDUAL` is two `DMAP`s (R156) -/

/-- The upper half of `DDUAL` is tilemap 0, unsigned, in the RGBA profile. -/
theorem shownPixel_ddual_upper (c : Config) (v : Vram) (pr : Profile) (x : Nat) {y : Nat} (hy : y < 256) :
    shownPixel c v (.ddual pr) x y = shownPixel c v (.dmap .map0 .unsigned .rgba) x y := by
  rw [shownPixel, shownPixel, ddualPixel, if_pos (by omega)]
  rfl

/-- The lower half of `DDUAL` is tilemap 1, signed, in the profile of the command: 32 map rows past tilemap 0 stands tilemap 1
(R123). -/
theorem shownPixel_ddual_lower (c : Config) (v : Vram) (pr : Profile) (x y : Nat) :
    shownPixel c v (.ddual pr) x (256 + y) = shownPixel c v (.dmap .map1 .signed pr) x y := by
  have hrow : mod8 (256 + y) = mod8 y := Fin.ext (Nat.mul_add_mod 8 32 y)
  have hcell : 0x1800 + (256 + y) / 8 * 32 + x / 8 = mapBase .map1 + y / 8 * 32 + x / 8 := by
    simp only [mapBase, Config.mapBase1]
    omega
  rw [shownPixel, shownPixel, ddualPixel, if_neg (by omega), hrow, hcell]
  rfl

/-- Settles O19: the three commands complete, and pixel by pixel the picture of `DDUAL` is that of the `DMAP` of its half. -/
theorem ddualIsTwoDmapsStacked : Obligations.DdualIsTwoDmapsStacked := by
  intro s s₁ s₂ v pr hv hv₁ hv₂ hc₁ hc₂ hf hf₁ hf₂ hgray
  have hlegal : profileLegal s.cfg pr = true := profileLegal_iff.2 hgray
  obtain ⟨t, hexec, ⟨hpixels, -⟩, -⟩ := exec_completes (i := .ddual pr) hf hv hlegal (Nat.zero_le _)
  obtain ⟨t₁, hexec₁, ⟨hpixels₁, -⟩, -⟩ :=
    exec_completes (i := .dmap .map0 .unsigned .rgba) hf₁ hv₁ rfl (Nat.zero_le _)
  obtain ⟨t₂, hexec₂, ⟨hpixels₂, -⟩, -⟩ :=
    exec_completes (i := .dmap .map1 .signed pr) hf₂ hv₂ (hc₂ ▸ hlegal) (Nat.zero_le _)
  simp only [outputSize] at hpixels hpixels₁ hpixels₂
  refine ⟨t, t₁, t₂, hexec, hexec₁, hexec₂, fun i hi => ?_⟩
  obtain ⟨x, y, hx, hy, rfl⟩ := (exists_pixel_iff_lt (w := 256) (h := 256)).2 hi
  constructor
  · rw [hpixels x y hx (by omega), hpixels₁ x y hx hy, shownPixel_ddual_upper s.cfg v pr x hy, hc₁]
  · have hlower : 65536 + (y * 256 + x) = (256 + y) * 256 + x := by omega
    rw [hlower, hpixels x (256 + y) hx (by omega), hpixels₂ x y hx hy, shownPixel_ddual_lower, hc₂]

/-! ## Which words show what -/

/-- What holds of every pixel of a picture holds of every word of its output area. -/
theorem ShowsPicture.exists_word {v : Vram} {i : Instr} {s : State} {fb : Fb} {P : Word → Prop} (h : ShowsPicture v i s fb)
    (hP : ∀ x y, x < (outputSize i).1 → y < (outputSize i).2 → P (shownPixel s.cfg v i x y)) :
    ∀ k < (outputSize i).1 * (outputSize i).2, ∃ w, fbWord fb k = some w ∧ P w := by
  intro k hk
  obtain ⟨x, y, hx, hy, rfl⟩ := exists_pixel_iff_lt.2 hk
  exact ⟨_, h.1 x y hx hy, hP x y hx hy⟩

/-- A picture of one colour shows it in every word of its output area. -/
theorem ShowsPicture.fbWord_of_const {v : Vram} {i : Instr} {s : State} {fb : Fb} {w : Word} (h : ShowsPicture v i s fb)
    (hw : ∀ x y, x < (outputSize i).1 → y < (outputSize i).2 → shownPixel s.cfg v i x y = w) :
    ∀ k < (outputSize i).1 * (outputSize i).2, fbWord fb k = some w := by
  intro k hk
  obtain ⟨u, hu, rfl⟩ := h.exists_word (P := (· = w)) hw k hk
  exact hu

/-- No pixel of a drawn tile is the sentinel (R142). -/
theorem tilePixel_ne_sentinel {c : Config} {pr : Profile} (h : pr = .gray → c.hasGray = true) (v : Vram) (off : Int)
    (r col : Fin 8) : tilePixel c v off pr r col ≠ c.sentinel :=
  color_ne_sentinel h _

/-! ## `DMAP` (R153) -/

/-- In a buffer of zeros every offset holds 0. -/
theorem vramByte_of_zeros {v : Vram} (hv : ∀ a : Int, 0 ≤ a → a ≤ 8191 → memRead v a = .ok 0x00#8) {a : Int} (h0 : 0 ≤ a)
    (h1 : a < 8192) : vramByte v a = 0x00#8 := by
  have hread := hv a h0 (by omega)
  rw [memRead_ok h0 h1] at hread
  exact Except.ok.inj hread

/-- A tile of zeros inside VRAM shows colour 0 everywhere. -/
theorem tilePixel_of_zeros {v : Vram} (hv : ∀ a : Int, 0 ≤ a → a ≤ 8191 → memRead v a = .ok 0x00#8) (c : Config) {off : Int}
    (pr : Profile) (r col : Fin 8) (h0 : 0 ≤ off) (h1 : off + 15 < 8192) : tilePixel c v off pr r col = color c pr 0 := by
  have hr := r.isLt
  rw [tilePixel, vramByte_of_zeros hv (by omega) (by omega), vramByte_of_zeros hv (by omega) (by omega)]
  exact congrArg (color c pr) (pix_fill 0 col)

/-- Settles O20: every pixel of the picture is one of a drawn tile, and in a buffer of zeros one of a tile of zeros. -/
theorem dmapLeavesNoSentinel : Obligations.DmapLeavesNoSentinel := by
  intro s v ms sg pr hf hv hgray
  obtain ⟨t, hexec, hshows, -⟩ := exec_completes (i := .dmap ms sg pr) hf hv (profileLegal_iff.2 hgray) (Nat.zero_le _)
  refine ⟨t, hexec, fun i hi => ?_, fun hzeros _ hpr i hi => ?_⟩
  · exact hshows.exists_word (P := (· ≠ s.cfg.sentinel)) (fun _ _ _ _ => tilePixel_ne_sentinel hgray v _ _ _) i
      (hi.trans_eq (outputArea_dmap ms sg pr).symm)
  · refine hshows.fbWord_of_const (fun _ _ _ _ => ?_) i (hi.trans_eq (outputArea_dmap ms sg pr).symm)
    obtain ⟨h0, h1⟩ := resolve_range s.cfg sg (vramByte v _)
    rw [hpr]
    exact tilePixel_of_zeros hzeros s.cfg .rgba _ _ h0 h1

/-! ## `DTILE` (R159) -/

/-- A `DTILE` in the RGBA profile is legal when its grid and its count are (R87). -/
theorem legal_dtile_rgba (c : Config) {n : BitVec 11} {gw : BitVec 6} {gh : BitVec 7} (hgw : 1 ≤ gw.toNat ∧ gw.toNat ≤ 32)
    (hgh : 1 ≤ gh.toNat ∧ gh.toNat ≤ 64) (hn : n.toNat ≤ 1024) : legal c (.dtile n gw gh .rgba) = true := by
  simp only [legal, profileLegal, gridWidthLegal, gridHeightLegal, tileCountLegal, Bool.and_eq_true, decide_eq_true_eq]
  exact ⟨⟨⟨trivial, hgw⟩, hgh⟩, hn⟩

/-- A pass depends on its cells through its walk only. -/
theorem runPass_congr {gw gh : Nat} {cell cell' : Nat → Nat → Except Fault (List Write)} (s : State)
    (h : walk gw gh cell = walk gw gh cell') : runPass gw gh cell s = runPass gw gh cell' s := by
  rw [runPass, runPass, h]

/-- Tiles past the grid make no difference to a walk: with enough tiles it draws every position. -/
theorem walk_dtileCell_all (c : Config) (v : Vram) {n gw gh : Nat} (pr : Profile) (hgrid : gw * gh ≤ 512) (hn : gw * gh ≤ n) :
    walk gw gh (dtileCell c v n gw pr) = .ok (gridWrites gw gh (fun _ _ => true) (dtilePixel c v gw pr)) := by
  rw [walk_dtileCell c v pr ((Nat.min_le_right _ _).trans hgrid), gridWrites_all gw gh _ hn]

/-- With no tile to draw every pixel is the sentinel. -/
theorem shownPixel_dfill (c : Config) (v : Vram) (gw : BitVec 6) (gh : BitVec 7) (x y : Nat) :
    shownPixel c v (Instr.dfill gw gh) x y = c.sentinel := by
  rw [Instr.dfill, shownPixel]
  exact if_neg (Nat.not_lt_zero _)

/-- With a tile for every position of the grid no pixel is the sentinel. -/
theorem shownPixel_dtile_ne_sentinel (c : Config) (v : Vram) {n : BitVec 11} {gw : BitVec 6} {gh : BitVec 7} {x y : Nat}
    (hn : gw.toNat * gh.toNat ≤ n.toNat) (hx : x < 8 * gw.toNat) (hy : y < 8 * gh.toNat) :
    shownPixel c v (.dtile n gw gh .rgba) x y ≠ c.sentinel := by
  have hid := id_lt (Nat.div_lt_of_lt_mul hx) (Nat.div_lt_of_lt_mul hy)
  rw [shownPixel, if_pos (hid.trans_le hn)]
  exact tilePixel_ne_sentinel (pr := .rgba) (by simp) v _ _ _

/-- Settles O21: the pictures with no tile and with a tile for every position, the walk that is the same for every count of at
least the grid, and the size of 512 tiles on 32 × 16. -/
theorem dtileCornerCases : Obligations.DtileCornerCases := by
  refine ⟨fun s v gw gh hf hv hgw0 hgw hgh0 hgh => ?dfill,
    fun s v n n' gw gh hf hv hgw0 hgw hgh0 hgh hn hn' hgrid hfull hfull' => ⟨?same, ?noSentinel⟩, fun s v hf hv => ?full⟩
  case dfill =>
    obtain ⟨t, hexec, hshows, -, -, hfault, -⟩ := exec_completes (i := Instr.dfill gw gh) hf hv
      (legal_dtile_rgba s.cfg ⟨hgw0, hgw⟩ ⟨hgh0, hgh⟩ (by decide)) ((Nat.min_le_left _ _).trans (by decide))
    exact ⟨t, hexec, hfault.trans hf, hshows.fbWord_of_const fun x y _ _ => shownPixel_dfill s.cfg v gw gh x y⟩
  case same =>
    have hpass {m : BitVec 11} (hm : m.toNat ≤ 1024) : exec (.dtile m gw gh .rgba) s =
        runPass gw.toNat gh.toNat (dtileCell s.cfg v m.toNat gw.toNat .rgba) s :=
      underCheck_run hf (legal_dtile_rgba s.cfg ⟨hgw0, hgw⟩ ⟨hgh0, hgh⟩ hm) hv ((Nat.min_le_right _ _).trans hgrid) _
    rw [hpass hn, hpass hn']
    exact runPass_congr s ((walk_dtileCell_all s.cfg v .rgba hgrid hfull).trans
      (walk_dtileCell_all s.cfg v .rgba hgrid hfull').symm)
  case noSentinel =>
    obtain ⟨t, hexec, hshows, -⟩ := exec_completes (i := .dtile n gw gh .rgba) hf hv
      (legal_dtile_rgba s.cfg ⟨hgw0, hgw⟩ ⟨hgh0, hgh⟩ hn) ((Nat.min_le_right _ _).trans hgrid)
    exact ⟨t, hexec, hshows.exists_word (P := (· ≠ s.cfg.sentinel)) fun x y hx hy =>
      shownPixel_dtile_ne_sentinel s.cfg v hfull hx hy⟩
  case full =>
    obtain ⟨t, hexec, -, hw, hh, hfault, -⟩ := exec_completes (i := .dtile 512#11 32#6 16#7 .rgba) hf hv
      (legal_dtile_rgba s.cfg (by decide) (by decide) (by decide)) (by decide)
    have hW : t.outW = 256#10 := BitVec.eq_of_toNat_eq hw
    have hH : t.outH = 128#10 := BitVec.eq_of_toNat_eq hh
    refine ⟨t, hexec, hfault.trans hf, ?_⟩
    rw [State.dims, hW, hH]
    rfl

end Sys2Proof.Machine
